-- ==== Sys2Proof/Word.lean ====
section
/-! DEFINITION. The widths the spec gives (00_scope.md R6, R14): bytes, 16-bit words, operand fields, register
indexes. All values are unsigned and nothing is sign-extended (R14). -/

namespace Sys2Proof

/-- A memory cell, a general register, a timer, an immediate `kk` (00_scope.md R6). -/
abbrev Byte := BitVec 8

/-- An opcode, `I`, `PC`, a stack entry, the levels of the sixteen keys (00_scope.md R6, R10). -/
abbrev Word := BitVec 16

/-- The index of one of the sixteen general registers V0 to VF (10_state.md R20). -/
abbrev RegIx := Fin 16

/-- A 12-bit immediate address `nnn` (30_encoding.md R82). -/
abbrev Addr := BitVec 12

/-- A 4-bit field: the sprite height `n` (30_encoding.md R82). -/
abbrev Nibble := BitVec 4

/-- `zext_16` of an address field (00_scope.md R15). -/
def zext16 (a : Addr) : Word := a.setWidth 16

/-- `zext_16` of a byte (00_scope.md R15). -/
def zextByte (b : Byte) : Word := b.setWidth 16

end Sys2Proof
end

