-- ==== Sys2Proof/Syntax.lean ====
section
/-! DEFINITION. The 34 instructions of 30_encoding.md R85, one constructor per row of spec/opcode_table.json, with
the operand fields of R82. The `y` field of `shr` and `shl` is kept although the operation ignores it (R88). -/

namespace Sys2Proof

/-- One instruction with its operand fields (30_encoding.md R85, R87). -/
inductive Instr where
  /-- 00E0 `CLS` (R161) -/
  | cls
  /-- 00EE `RET` (R143) -/
  | ret
  /-- 1nnn `JP nnn` (R141) -/
  | jp (nnn : Addr)
  /-- 2nnn `CALL nnn` (R142) -/
  | call (nnn : Addr)
  /-- 3xkk `SE Vx, kk` (R145) -/
  | seImm (x : RegIx) (kk : Byte)
  /-- 4xkk `SNE Vx, kk` (R146) -/
  | sneImm (x : RegIx) (kk : Byte)
  /-- 5xy0 `SE Vx, Vy` (R147) -/
  | seReg (x y : RegIx)
  /-- 6xkk `LD Vx, kk` (R111) -/
  | ldImm (x : RegIx) (kk : Byte)
  /-- 7xkk `ADD Vx, kk` (R112) -/
  | addImm (x : RegIx) (kk : Byte)
  /-- 8xy0 `LD Vx, Vy` (R113) -/
  | ldReg (x y : RegIx)
  /-- 8xy1 `OR Vx, Vy` (R114) -/
  | orReg (x y : RegIx)
  /-- 8xy2 `AND Vx, Vy` (R115) -/
  | andReg (x y : RegIx)
  /-- 8xy3 `XOR Vx, Vy` (R116) -/
  | xorReg (x y : RegIx)
  /-- 8xy4 `ADD Vx, Vy` (R117) -/
  | addReg (x y : RegIx)
  /-- 8xy5 `SUB Vx, Vy` (R118) -/
  | subReg (x y : RegIx)
  /-- 8xy6 `SHR Vx` (R119) -/
  | shr (x y : RegIx)
  /-- 8xy7 `SUBN Vx, Vy` (R120) -/
  | subnReg (x y : RegIx)
  /-- 8xyE `SHL Vx` (R121) -/
  | shl (x y : RegIx)
  /-- 9xy0 `SNE Vx, Vy` (R148) -/
  | sneReg (x y : RegIx)
  /-- Annn `LD I, nnn` (R122) -/
  | ldI (nnn : Addr)
  /-- Bnnn `JP V0, nnn` (R144) -/
  | jpV0 (nnn : Addr)
  /-- Cxkk `RND Vx, kk` (R193) -/
  | rnd (x : RegIx) (kk : Byte)
  /-- Dxyn `DRW Vx, Vy, n` (R162) -/
  | drw (x y : RegIx) (n : Nibble)
  /-- Ex9E `SKP Vx` (R181) -/
  | skp (x : RegIx)
  /-- ExA1 `SKNP Vx` (R182) -/
  | sknp (x : RegIx)
  /-- Fx07 `LD Vx, DT` (R171) -/
  | ldVxDt (x : RegIx)
  /-- Fx0A `LD Vx, K` (R183) -/
  | ldVxK (x : RegIx)
  /-- Fx15 `LD DT, Vx` (R172) -/
  | ldDtVx (x : RegIx)
  /-- Fx18 `LD ST, Vx` (R173) -/
  | ldStVx (x : RegIx)
  /-- Fx1E `ADD I, Vx` (R191) -/
  | addI (x : RegIx)
  /-- Fx29 `LD F, Vx` (R192) -/
  | ldF (x : RegIx)
  /-- Fx33 `LD B, Vx` (R194) -/
  | ldB (x : RegIx)
  /-- Fx55 `LD [I], Vx` (R123) -/
  | storeRegs (x : RegIx)
  /-- Fx65 `LD Vx, [I]` (R124) -/
  | loadRegs (x : RegIx)
  deriving DecidableEq, Repr

end Sys2Proof
end

