-- ==== Sys2Proof/WellFormed.lean ====
section
/-! DEFINITION. The operand view of an instruction: the rows of the opcode map by name, the six formats
(30_encoding.md R81), the operand fields as plain numbers (R82), and the check that a list of field values is one the
row's format can hold. An instruction (`Instr`) is built only from fields that pass, so its operands always fit. -/

namespace Sys2Proof

/-- The six instruction formats (30_encoding.md R81). -/
inductive Format where
  | fixed | nnn | xkk | xy | xyn | x
  deriving DecidableEq, Repr

/-- The 34 rows of the opcode map by name, in the table's order (30_encoding.md R85). -/
inductive Op where
  | cls | ret | jp | call | seImm | sneImm | seReg | ldImm | addImm
  | ldReg | orReg | andReg | xorReg | addReg | subReg | shr | subnReg | shl
  | sneReg | ldI | jpV0 | rnd | drw | skp | sknp | ldVxDt | ldVxK
  | ldDtVx | ldStVx | addI | ldF | ldB | storeRegs | loadRegs
  deriving DecidableEq, Repr

/-- All rows, in the order of 30_encoding.md R85. -/
def Op.all : List Op :=
  [.cls, .ret, .jp, .call, .seImm, .sneImm, .seReg, .ldImm, .addImm,
   .ldReg, .orReg, .andReg, .xorReg, .addReg, .subReg, .shr, .subnReg, .shl,
   .sneReg, .ldI, .jpV0, .rnd, .drw, .skp, .sknp, .ldVxDt, .ldVxK,
   .ldDtVx, .ldStVx, .addI, .ldF, .ldB, .storeRegs, .loadRegs]

/-- The format of a row (30_encoding.md R85). -/
def Op.format : Op → Format
  | .cls | .ret => .fixed
  | .jp | .call | .ldI | .jpV0 => .nnn
  | .seImm | .sneImm | .ldImm | .addImm | .rnd => .xkk
  | .seReg | .ldReg | .orReg | .andReg | .xorReg | .addReg | .subReg | .shr | .subnReg | .shl | .sneReg => .xy
  | .drw => .xyn
  | .skp | .sknp | .ldVxDt | .ldVxK | .ldDtVx | .ldStVx | .addI | .ldF | .ldB | .storeRegs | .loadRegs => .x

/-- The mnemonic the spec prints for a row (30_encoding.md R85, R100); used for naming only. -/
def Op.mnemonic : Op → String
  | .cls => "CLS"
  | .ret => "RET"
  | .jp => "JP nnn"
  | .call => "CALL nnn"
  | .seImm => "SE Vx, kk"
  | .sneImm => "SNE Vx, kk"
  | .seReg => "SE Vx, Vy"
  | .ldImm => "LD Vx, kk"
  | .addImm => "ADD Vx, kk"
  | .ldReg => "LD Vx, Vy"
  | .orReg => "OR Vx, Vy"
  | .andReg => "AND Vx, Vy"
  | .xorReg => "XOR Vx, Vy"
  | .addReg => "ADD Vx, Vy"
  | .subReg => "SUB Vx, Vy"
  | .shr => "SHR Vx"
  | .subnReg => "SUBN Vx, Vy"
  | .shl => "SHL Vx"
  | .sneReg => "SNE Vx, Vy"
  | .ldI => "LD I, nnn"
  | .jpV0 => "JP V0, nnn"
  | .rnd => "RND Vx, kk"
  | .drw => "DRW Vx, Vy, n"
  | .skp => "SKP Vx"
  | .sknp => "SKNP Vx"
  | .ldVxDt => "LD Vx, DT"
  | .ldVxK => "LD Vx, K"
  | .ldDtVx => "LD DT, Vx"
  | .ldStVx => "LD ST, Vx"
  | .addI => "ADD I, Vx"
  | .ldF => "LD F, Vx"
  | .ldB => "LD B, Vx"
  | .storeRegs => "LD [I], Vx"
  | .loadRegs => "LD Vx, [I]"

/-- The operand fields as plain unsigned numbers, 0 where the format has no such field (30_encoding.md R82). -/
structure Fields where
  x : Nat := 0
  y : Nat := 0
  n : Nat := 0
  kk : Nat := 0
  nnn : Nat := 0
  deriving DecidableEq, Repr

/-- The number of values each field can take in a format: its width of 30_encoding.md R82 where the format has the
field (R81), and one value (0) where it has none. -/
def Format.limits : Format → Fields
  | .fixed => ⟨1, 1, 1, 1, 1⟩
  | .nnn => ⟨1, 1, 1, 1, 4096⟩
  | .xkk => ⟨16, 1, 1, 256, 1⟩
  | .xy => ⟨16, 16, 1, 1, 1⟩
  | .xyn => ⟨16, 16, 16, 1, 1⟩
  | .x => ⟨16, 1, 1, 1, 1⟩

/-- Every field value is one the format can hold (30_encoding.md R81, R82). -/
def Fields.wellFormed (fmt : Format) (f : Fields) : Bool :=
  decide (f.x < fmt.limits.x) && decide (f.y < fmt.limits.y) && decide (f.n < fmt.limits.n) &&
    decide (f.kk < fmt.limits.kk) && decide (f.nnn < fmt.limits.nnn)

/-- The row an instruction belongs to. -/
def Instr.op : Instr → Op
  | .cls => .cls
  | .ret => .ret
  | .jp _ => .jp
  | .call _ => .call
  | .seImm _ _ => .seImm
  | .sneImm _ _ => .sneImm
  | .seReg _ _ => .seReg
  | .ldImm _ _ => .ldImm
  | .addImm _ _ => .addImm
  | .ldReg _ _ => .ldReg
  | .orReg _ _ => .orReg
  | .andReg _ _ => .andReg
  | .xorReg _ _ => .xorReg
  | .addReg _ _ => .addReg
  | .subReg _ _ => .subReg
  | .shr _ _ => .shr
  | .subnReg _ _ => .subnReg
  | .shl _ _ => .shl
  | .sneReg _ _ => .sneReg
  | .ldI _ => .ldI
  | .jpV0 _ => .jpV0
  | .rnd _ _ => .rnd
  | .drw _ _ _ => .drw
  | .skp _ => .skp
  | .sknp _ => .sknp
  | .ldVxDt _ => .ldVxDt
  | .ldVxK _ => .ldVxK
  | .ldDtVx _ => .ldDtVx
  | .ldStVx _ => .ldStVx
  | .addI _ => .addI
  | .ldF _ => .ldF
  | .ldB _ => .ldB
  | .storeRegs _ => .storeRegs
  | .loadRegs _ => .loadRegs

/-- The operand fields of an instruction as numbers. -/
def Instr.fields : Instr → Fields
  | .cls | .ret => ⟨0, 0, 0, 0, 0⟩
  | .jp nnn | .call nnn | .ldI nnn | .jpV0 nnn => ⟨0, 0, 0, 0, nnn.toNat⟩
  | .seImm x kk | .sneImm x kk | .ldImm x kk | .addImm x kk | .rnd x kk => ⟨x.val, 0, 0, kk.toNat, 0⟩
  | .seReg x y | .ldReg x y | .orReg x y | .andReg x y | .xorReg x y
  | .addReg x y | .subReg x y | .shr x y | .subnReg x y | .shl x y
  | .sneReg x y => ⟨x.val, y.val, 0, 0, 0⟩
  | .drw x y n => ⟨x.val, y.val, n.toNat, 0, 0⟩
  | .skp x | .sknp x | .ldVxDt x | .ldVxK x | .ldDtVx x
  | .ldStVx x | .addI x | .ldF x | .ldB x | .storeRegs x
  | .loadRegs x => ⟨x.val, 0, 0, 0, 0⟩

/-- The instruction of a row with the given field values, each taken modulo its width. -/
def Op.instr (f : Fields) : Op → Instr
  | .cls => .cls
  | .ret => .ret
  | .jp => .jp (BitVec.ofNat 12 f.nnn)
  | .call => .call (BitVec.ofNat 12 f.nnn)
  | .seImm => .seImm (Fin.ofNat 16 f.x) (BitVec.ofNat 8 f.kk)
  | .sneImm => .sneImm (Fin.ofNat 16 f.x) (BitVec.ofNat 8 f.kk)
  | .seReg => .seReg (Fin.ofNat 16 f.x) (Fin.ofNat 16 f.y)
  | .ldImm => .ldImm (Fin.ofNat 16 f.x) (BitVec.ofNat 8 f.kk)
  | .addImm => .addImm (Fin.ofNat 16 f.x) (BitVec.ofNat 8 f.kk)
  | .ldReg => .ldReg (Fin.ofNat 16 f.x) (Fin.ofNat 16 f.y)
  | .orReg => .orReg (Fin.ofNat 16 f.x) (Fin.ofNat 16 f.y)
  | .andReg => .andReg (Fin.ofNat 16 f.x) (Fin.ofNat 16 f.y)
  | .xorReg => .xorReg (Fin.ofNat 16 f.x) (Fin.ofNat 16 f.y)
  | .addReg => .addReg (Fin.ofNat 16 f.x) (Fin.ofNat 16 f.y)
  | .subReg => .subReg (Fin.ofNat 16 f.x) (Fin.ofNat 16 f.y)
  | .shr => .shr (Fin.ofNat 16 f.x) (Fin.ofNat 16 f.y)
  | .subnReg => .subnReg (Fin.ofNat 16 f.x) (Fin.ofNat 16 f.y)
  | .shl => .shl (Fin.ofNat 16 f.x) (Fin.ofNat 16 f.y)
  | .sneReg => .sneReg (Fin.ofNat 16 f.x) (Fin.ofNat 16 f.y)
  | .ldI => .ldI (BitVec.ofNat 12 f.nnn)
  | .jpV0 => .jpV0 (BitVec.ofNat 12 f.nnn)
  | .rnd => .rnd (Fin.ofNat 16 f.x) (BitVec.ofNat 8 f.kk)
  | .drw => .drw (Fin.ofNat 16 f.x) (Fin.ofNat 16 f.y) (BitVec.ofNat 4 f.n)
  | .skp => .skp (Fin.ofNat 16 f.x)
  | .sknp => .sknp (Fin.ofNat 16 f.x)
  | .ldVxDt => .ldVxDt (Fin.ofNat 16 f.x)
  | .ldVxK => .ldVxK (Fin.ofNat 16 f.x)
  | .ldDtVx => .ldDtVx (Fin.ofNat 16 f.x)
  | .ldStVx => .ldStVx (Fin.ofNat 16 f.x)
  | .addI => .addI (Fin.ofNat 16 f.x)
  | .ldF => .ldF (Fin.ofNat 16 f.x)
  | .ldB => .ldB (Fin.ofNat 16 f.x)
  | .storeRegs => .storeRegs (Fin.ofNat 16 f.x)
  | .loadRegs => .loadRegs (Fin.ofNat 16 f.x)

/-- The instruction a row and its field values stand for: refused unless every field value is in range. -/
def Instr.ofFields (op : Op) (f : Fields) : Option Instr :=
  if f.wellFormed op.format then some (op.instr f) else none

/-- An instruction is well-formed when its fields pass the check of its row's format. -/
def Instr.wellFormed (i : Instr) : Bool := i.fields.wellFormed i.op.format

end Sys2Proof
end

