-- ==== Sys2Proof/Decode.lean ====
section
/-! DEFINITION. The Instruction Catalog (30_encoding.md R84, R85): a total decoder of 16-bit words, the encoder of R88
after it, the big-endian layout of a word in bytes (20_memory.md R56), and the reading of a table word. -/

namespace Sys2Proof

/-- `op[11:8]` (30_encoding.md R82). -/
def fieldX (op : Word) : RegIx := Fin.ofNat 16 (op.extractLsb' 8 4).toNat

/-- `op[7:4]` (30_encoding.md R82). -/
def fieldY (op : Word) : RegIx := Fin.ofNat 16 (op.extractLsb' 4 4).toNat

/-- `op[3:0]` (30_encoding.md R82). -/
def fieldN (op : Word) : Nibble := op.extractLsb' 0 4

/-- `op[7:0]` (30_encoding.md R82). -/
def fieldKk (op : Word) : Byte := op.extractLsb' 0 8

/-- `op[11:0]` (30_encoding.md R82). -/
def fieldNnn (op : Word) : Addr := op.extractLsb' 0 12

/-- `op[15:12]`, the coarse category (30_encoding.md R84). -/
def category (op : Word) : Nat := (op.extractLsb' 12 4).toNat

/-- Category 0x8, by the low nibble (30_encoding.md R84). -/
def decode8 (op : Word) : Option Instr :=
  match (fieldN op).toNat with
  | 0x0 => some (.ldReg (fieldX op) (fieldY op))
  | 0x1 => some (.orReg (fieldX op) (fieldY op))
  | 0x2 => some (.andReg (fieldX op) (fieldY op))
  | 0x3 => some (.xorReg (fieldX op) (fieldY op))
  | 0x4 => some (.addReg (fieldX op) (fieldY op))
  | 0x5 => some (.subReg (fieldX op) (fieldY op))
  | 0x6 => some (.shr (fieldX op) (fieldY op))
  | 0x7 => some (.subnReg (fieldX op) (fieldY op))
  | 0xE => some (.shl (fieldX op) (fieldY op))
  | _ => none

/-- Category 0xE, by the low byte (30_encoding.md R84). -/
def decodeE (op : Word) : Option Instr :=
  if fieldKk op = 0x9E then some (.skp (fieldX op))
  else if fieldKk op = 0xA1 then some (.sknp (fieldX op))
  else none

/-- Category 0xF, by the low byte (30_encoding.md R84). -/
def decodeF (op : Word) : Option Instr :=
  if fieldKk op = 0x07 then some (.ldVxDt (fieldX op))
  else if fieldKk op = 0x0A then some (.ldVxK (fieldX op))
  else if fieldKk op = 0x15 then some (.ldDtVx (fieldX op))
  else if fieldKk op = 0x18 then some (.ldStVx (fieldX op))
  else if fieldKk op = 0x1E then some (.addI (fieldX op))
  else if fieldKk op = 0x29 then some (.ldF (fieldX op))
  else if fieldKk op = 0x33 then some (.ldB (fieldX op))
  else if fieldKk op = 0x55 then some (.storeRegs (fieldX op))
  else if fieldKk op = 0x65 then some (.loadRegs (fieldX op))
  else none

/-- `Decode` of 30_encoding.md R84: `none` is "no match", which a Step turns into UnknownOpcode (R96). It depends on
the word alone. -/
def decodeWord (op : Word) : Option Instr :=
  match category op with
  | 0x0 => if op = 0x00E0 then some .cls else if op = 0x00EE then some .ret else none
  | 0x1 => some (.jp (fieldNnn op))
  | 0x2 => some (.call (fieldNnn op))
  | 0x3 => some (.seImm (fieldX op) (fieldKk op))
  | 0x4 => some (.sneImm (fieldX op) (fieldKk op))
  | 0x5 => if fieldN op = 0 then some (.seReg (fieldX op) (fieldY op)) else none
  | 0x6 => some (.ldImm (fieldX op) (fieldKk op))
  | 0x7 => some (.addImm (fieldX op) (fieldKk op))
  | 0x8 => decode8 op
  | 0x9 => if fieldN op = 0 then some (.sneReg (fieldX op) (fieldY op)) else none
  | 0xA => some (.ldI (fieldNnn op))
  | 0xB => some (.jpV0 (fieldNnn op))
  | 0xC => some (.rnd (fieldX op) (fieldKk op))
  | 0xD => some (.drw (fieldX op) (fieldY op) (fieldN op))
  | 0xE => decodeE op
  | 0xF => decodeF op
  | _ => none

/-- The word of two consecutive bytes, the high byte first (20_memory.md R56). -/
def wordOfBytes (hi lo : Byte) : Word := hi ++ lo

/-- The high byte of a word, which lies at the lower address (20_memory.md R56). -/
def highByte (op : Word) : Byte := op.extractLsb' 8 8

/-- The low byte of a word, which lies at the higher address (20_memory.md R56). -/
def lowByte (op : Word) : Byte := op.extractLsb' 0 8

/-- The decoder on a list of bytes: the instruction and the bytes after it; `none` where fewer than two bytes are
left or the word is no instruction (30_encoding.md R80, R96). -/
def decodeBytes : List Byte → Option (Instr × List Byte)
  | hi :: lo :: rest => (decodeWord (wordOfBytes hi lo)).map fun i => (i, rest)
  | _ => none

/-- The `mask` column of 30_encoding.md R85. -/
def Op.mask : Op → Word
  | .cls | .ret => 0xFFFF
  | .jp | .call | .seImm | .sneImm | .ldImm | .addImm | .ldI | .jpV0 | .rnd
  | .drw => 0xF000
  | .seReg | .ldReg | .orReg | .andReg | .xorReg | .addReg | .subReg | .shr | .subnReg
  | .shl | .sneReg => 0xF00F
  | .skp | .sknp | .ldVxDt | .ldVxK | .ldDtVx | .ldStVx | .addI | .ldF | .ldB
  | .storeRegs | .loadRegs => 0xF0FF

/-- The `match` column of 30_encoding.md R85. -/
def Op.matchBits : Op → Word
  | .cls => 0x00E0
  | .ret => 0x00EE
  | .jp => 0x1000
  | .call => 0x2000
  | .seImm => 0x3000
  | .sneImm => 0x4000
  | .seReg => 0x5000
  | .ldImm => 0x6000
  | .addImm => 0x7000
  | .ldReg => 0x8000
  | .orReg => 0x8001
  | .andReg => 0x8002
  | .xorReg => 0x8003
  | .addReg => 0x8004
  | .subReg => 0x8005
  | .shr => 0x8006
  | .subnReg => 0x8007
  | .shl => 0x800E
  | .sneReg => 0x9000
  | .ldI => 0xA000
  | .jpV0 => 0xB000
  | .rnd => 0xC000
  | .drw => 0xD000
  | .skp => 0xE09E
  | .sknp => 0xE0A1
  | .ldVxDt => 0xF007
  | .ldVxK => 0xF00A
  | .ldDtVx => 0xF015
  | .ldStVx => 0xF018
  | .addI => 0xF01E
  | .ldF => 0xF029
  | .ldB => 0xF033
  | .storeRegs => 0xF055
  | .loadRegs => 0xF065

/-- "A word matches a row of rule R85 when `(op & mask) = match`" (30_encoding.md R84). -/
def Op.matches (r : Op) (op : Word) : Bool := op &&& r.mask == r.matchBits

/-- `Encode(row, fields) = match | (x << 8) | (y << 4) | n | kk | nnn` (30_encoding.md R88). -/
def encodeFields (r : Op) (f : Fields) : Word :=
  r.matchBits ||| BitVec.ofNat 16 (f.x <<< 8) ||| BitVec.ofNat 16 (f.y <<< 4) |||
    BitVec.ofNat 16 f.n ||| BitVec.ofNat 16 f.kk ||| BitVec.ofNat 16 f.nnn

/-- The word of an instruction (30_encoding.md R88). -/
def encode (i : Instr) : Word := encodeFields i.op i.fields

/-- The two bytes of an instruction as Memory holds them, high byte first (30_encoding.md R80). -/
def encodeBytes (i : Instr) : List Byte := [highByte (encode i), lowByte (encode i)]

/-- The word of spec/opcode_table.json's numbering: bit 0 is the least significant bit of the one 16-bit word, and
every bit from `nbits` up is 0. -/
def tableWord (nbits w : Nat) : Word := BitVec.ofNat 16 (w % 2 ^ nbits)

/-- The instruction the decoder reads from a table word laid out in bytes as the hardware stores it. -/
def decodeTableWord (nbits w : Nat) : Option Instr :=
  (decodeBytes [highByte (tableWord nbits w), lowByte (tableWord nbits w)]).map Prod.fst

end Sys2Proof
end

