-- ==== Sys2Proof/Config.lean ====
section
/-! DEFINITION. What is fixed for the machine (00_scope.md R6), the strap values that `State.reset` takes where the
spec leaves a parameter OPEN (R7; log entries 2 and 3), and the free values of the two input ports (log entries 7
and 8). -/

namespace Sys2Proof.Config

/-- `MEM_SIZE` (00_scope.md R6). -/
@[simp] abbrev memSize : Nat := 4096

/-- `PROG_BASE`, the load address of a program and the reset value of PC (00_scope.md R6). -/
@[simp] abbrev progBase : Nat := 0x200

/-- `PROG_MAX` (00_scope.md R6). -/
@[simp] abbrev progMax : Nat := 3584

/-- `STACK_DEPTH` (00_scope.md R6). -/
@[simp] abbrev stackDepth : Nat := 16

/-- `TICK_HZ`: "default 60 Hz" (00_scope.md R7). -/
def defaultTickHz : Nat := 60

/-- `SPEED_HZ` in `State.reset`. DESIGN CHOICE (log entry 2): the spec leaves it OPEN. -/
def resetSpeedHz : Nat := 0

/-- `MODIFY_I` in `State.reset`. DESIGN CHOICE (log entry 2): the spec leaves it OPEN. -/
def resetModifyI : Bool := false

/-- `CLEAR_SCREEN_ON_RESET` in `State.reset`. DESIGN CHOICE (log entry 2): the spec leaves it OPEN. -/
def resetClearScreenOnReset : Bool := false

/-- `STOP_WHEN_HALTED` in `State.reset`. DESIGN CHOICE (log entry 2): the spec leaves it OPEN. -/
def resetStopWhenHalted : Bool := false

/-- `FONT_BASE` in `State.reset`: 0x000 (00_scope.md R7, 92_eei_decisions.md D18). -/
def resetFontBase : Addr := 0x000

/-- `FONT_IMAGE` in `State.reset`. DESIGN CHOICE (log entry 3): the spec leaves it OPEN and lets it be empty. -/
def resetFontImage : List Byte := []

/-- The recommended `FONT_IMAGE`, sixteen sprites of five bytes (93_implementation_defined.md G9). -/
def digitFont : List Byte :=
  [0xF0, 0x90, 0x90, 0x90, 0xF0] ++ [0x20, 0x60, 0x20, 0x20, 0x70] ++
  [0xF0, 0x10, 0xF0, 0x80, 0xF0] ++ [0xF0, 0x10, 0xF0, 0x10, 0xF0] ++
  [0x90, 0x90, 0xF0, 0x10, 0x10] ++ [0xF0, 0x80, 0xF0, 0x10, 0xF0] ++
  [0xF0, 0x80, 0xF0, 0x90, 0xF0] ++ [0xF0, 0x10, 0x20, 0x40, 0x40] ++
  [0xF0, 0x90, 0xF0, 0x90, 0xF0] ++ [0xF0, 0x90, 0xF0, 0x10, 0xF0] ++
  [0xF0, 0x90, 0xF0, 0x90, 0x90] ++ [0xE0, 0x90, 0xE0, 0x90, 0xE0] ++
  [0xF0, 0x80, 0x80, 0x80, 0xF0] ++ [0xE0, 0x90, 0x90, 0x90, 0xE0] ++
  [0xF0, 0x80, 0xF0, 0x80, 0xF0] ++ [0xF0, 0x80, 0xF0, 0x80, 0x80]

/-- FREE VALUE (log entry 7): the level of the port `keys[15:0]` at its `n`-th sample, when the environment has
supplied none in the State (44_input_ops.md R180: "a value the environment supplies, under no law"). -/
opaque keyLevel : Nat → Word

/-- FREE VALUE (log entry 8): the byte on the port `rand[7:0]` at its `n`-th draw, when the environment has supplied
none in the State (45_misc_ops.md R193: "a free draw at each execution"). -/
opaque randByte : Nat → Byte

end Sys2Proof.Config
end

