-- ==== Sys2Proof/Machine/State.lean ====
section
/-! DEFINITION. The state of the core as plain data, component by component as the spec names them (00_scope.md R2,
10_state.md), with the environment that feeds its input ports and the record of its output ports; the reasons a step
can stop; and `State.reset`, the machine right after construction (70_reset_and_hazards.md R251). -/

namespace Sys2Proof.Machine

/-- The four causes of a Step fault (60_exceptions.md R200; 10_state.md R31). -/
inductive Cause where
  | outOfRange | unknownOpcode | stackOverflow | stackUnderflow
  deriving DecidableEq, Repr

/-- The fault record (10_state.md R31). -/
structure FaultRecord where
  cause  : Cause
  /-- the word fetched; `none` when the fault arose in the fetch itself -/
  opcode : Option Word
  /-- the address of the faulting instruction -/
  pc     : Word
  /-- the offending address of OutOfRange, else `none` -/
  addr   : Option Nat
  deriving DecidableEq, Repr

/-- `run_state` (10_state.md R30). -/
inductive RunState where
  | stopped | running | halted
  deriving DecidableEq, Repr

/-- `mode` (10_state.md R30, R32). -/
inductive Mode where
  | astable | monostable
  deriving DecidableEq, Repr

/-- The two option flags, "documented exhaustively" (70_reset_and_hazards.md R257). -/
inductive OptionFlag where
  | clearScreenOnReset | modifyIOnFx55AndFx65
  deriving DecidableEq, Repr

/-- What the outside world delivers to the core: the tick pulse and the host commands (00_scope.md R9). -/
inductive Input where
  | tick
  | start
  | stop
  | setMode (m : Mode)
  | setSpeed (hz : Nat)
  | setOptionFlag (flag : OptionFlag) (b : Bool)
  | getOptionFlag (flag : OptionFlag)
  | loadProgram (image : List Byte)
  | powerCycle
  | restart
  deriving DecidableEq, Repr

/-- What the core puts on its output ports (00_scope.md R10; 60_exceptions.md R233) and, in the last two, what it
answers to a host command. -/
inductive Output where
  /-- event `MemoryModified(address, oldValue, newValue)` (20_memory.md R53) -/
  | memoryModified (address : Nat) (old new : Byte)
  /-- event `MemoryRangeModified(start, end)`, the end inclusive (20_memory.md R54) -/
  | memoryRangeModified (first last : Nat)
  /-- event `CycleStepped()` (60_exceptions.md R225) -/
  | cycleStepped
  /-- event `EmulationHalted(faultDetail, PC)` (60_exceptions.md R205) -/
  | emulationHalted (detail : FaultRecord) (pc : Word)
  /-- Display sink `Clear()` (00_scope.md R11) -/
  | displayClear
  /-- Display sink `SetPixel(x, y, on)`, never outside the display (00_scope.md R11) -/
  | displaySetPixel (x : Fin 64) (y : Fin 32) (on : Bool)
  /-- Buzzer sink `Play()` (60_exceptions.md R231) -/
  | buzzerPlay
  /-- Buzzer sink `Stop()` (60_exceptions.md R231) -/
  | buzzerStop
  /-- the answer to `GetOptionFlag` (70_reset_and_hazards.md R257); not an event -/
  | optionFlag (flag : OptionFlag) (b : Bool)
  /-- ProgramTooLarge, reported to the caller of `LoadProgram` with the image length (70_reset_and_hazards.md R255);
  not an event -/
  | programTooLarge (length : Nat)
  deriving DecidableEq, Repr

/-- Memory: the cells that differ from 0, which is what an unlisted address reads as (70_reset_and_hazards.md R251:
`M[0..4095] <- 0`). -/
structure Memory where
  cells : List Host.Cell
  deriving DecidableEq, Repr

/-- The canonical form of Memory: addresses strictly rising and inside the 4096 bytes, no listed cell equal to 0. -/
abbrev Memory.wf (m : Memory) : Prop :=
  m.cells.Pairwise (fun c d => c.1 < d.1) ∧ ∀ c ∈ m.cells, c.1 < Config.memSize ∧ c.2 ≠ 0

/-- The frame buffer `FB[x][y]`, 64 columns of 32 pixels, `(0,0)` at the top-left (42_display_ops.md R160). -/
abbrev Display := Vector (Vector Bool 32) 64

/-- The Processor's registers, stack and timers (10_state.md R20 to R29). -/
structure Processor where
  v     : Vector Byte 16
  i     : Word
  pc    : Word
  sp    : BitVec 8
  stack : Vector Word 16
  dt    : Byte
  st    : Byte
  deriving DecidableEq, Repr

/-- The Oscillator's state (10_state.md R30, R31). `stepsLeft` counts the Steps still to run in the tick in progress
(the loop of 60_exceptions.md R227); it is 0 exactly between ticks. -/
structure Oscillator where
  runState     : RunState
  tickArmed    : Bool
  acc          : Nat
  elapsedTicks : Nat
  fault        : Option FaultRecord
  stepsLeft    : Nat
  deriving DecidableEq, Repr

/-- The straps and configuration registers (00_scope.md R7; 10_state.md R32). -/
structure Configuration where
  tickHz             : Nat
  speedHz            : Nat
  mode               : Mode
  modifyI            : Bool
  clearScreenOnReset : Bool
  stopWhenHalted     : Bool
  fontBase           : Addr
  fontImage          : List Byte
  deriving DecidableEq, Repr

/-- What the outside world has in store for the core, the model's own (log entries 5, 7 and 8): the inputs it will
deliver, the levels it will put on `keys` and the bytes it will put on `rand`, next first, with the counters of the
samples taken. -/
structure Environment where
  inputs     : List Input
  keyLevels  : List Word
  keySamples : Nat
  randDraws  : List Byte
  randCount  : Nat
  deriving DecidableEq, Repr

/-- The whole machine: Processor, Memory, the two sinks, Oscillator, configuration, the Computer's stored program
(10_state.md R33), the environment, and everything put out so far, oldest first. -/
structure State where
  cpu     : Processor
  mem     : Memory
  fb      : Display
  buzzing : Bool
  osc     : Oscillator
  cfg     : Configuration
  program : Option (List Byte)
  env     : Environment
  outputs : List Output
  deriving DecidableEq, Repr

/-- Why the machine stops outside the spec's own behaviour. The spec's Step faults are no such stop: their entry, the
halt sequence, is a next state (60_exceptions.md R205). Every constructor here is raised only in a state that breaks
`Inv` (Sys2Proof/Safety.lean), which no run from `State.reset` reaches; each is safe (log entry 10). -/
inductive Fault where
  /-- raised by `CALL` and `RET` when SP is above 16; "SP never holds a value above 16" (10_state.md R27); safe -/
  | stackPointerAboveCapacity
  /-- raised by `PowerCycle` and `Restart` when the stored program or the font image does not fit its place in Memory
  (10_state.md R33, 70_reset_and_hazards.md R259 exclude it); safe -/
  | imageOutsideMemory
  /-- raised by an Astable tick when TICK_HZ is 0; it is a positive integer (00_scope.md R7); safe -/
  | tickFrequencyZero
  deriving DecidableEq, Repr

/-- Why the model gives no meaning. -/
inductive Refusal where
  /-- raised by an arm of `exec` whose instruction has no meaning yet (there is none in this model); safe -/
  | notModelled (mnemonic : String)
  deriving DecidableEq, Repr

/-- One step's outcome. -/
abbrev Result := Host.Outcome State Fault Refusal

/-- The Processor after every reset (10_state.md R37). -/
def Processor.initial : Processor where
  v := Vector.replicate 16 0
  i := 0
  pc := 0x200
  sp := 0
  stack := Vector.replicate 16 0
  dt := 0
  st := 0

/-- The Oscillator after every reset, Stopped and disarmed (10_state.md R37). -/
def Oscillator.initial : Oscillator where
  runState := .stopped
  tickArmed := false
  acc := 0
  elapsedTicks := 0
  fault := none
  stepsLeft := 0

/-- The blank display (10_state.md R37). -/
def Display.blank : Display := Vector.replicate 64 (Vector.replicate 32 false)

/-- The straps of `State.reset` (log entries 2 and 3); `mode` is Astable at construction (00_scope.md R7). -/
def Configuration.initial : Configuration where
  tickHz := Config.defaultTickHz
  speedHz := Config.resetSpeedHz
  mode := .astable
  modifyI := Config.resetModifyI
  clearScreenOnReset := Config.resetClearScreenOnReset
  stopWhenHalted := Config.resetStopWhenHalted
  fontBase := Config.resetFontBase
  fontImage := Config.resetFontImage

/-- An environment with nothing in store and nothing sampled (log entries 5, 7 and 8). -/
def Environment.initial : Environment where
  inputs := []
  keyLevels := []
  keySamples := 0
  randDraws := []
  randCount := 0

/-- The machine right after construction, before any tick or command (70_reset_and_hazards.md R251; 10_state.md R37),
with the straps of `Configuration.initial`, whose font image is empty. -/
def State.reset : State where
  cpu := .initial
  mem := ⟨[]⟩
  fb := .blank
  buzzing := false
  osc := .initial
  cfg := .initial
  program := none
  env := .initial
  outputs := []

end Sys2Proof.Machine
end

