-- ==== Sys2Proof/Machine/Ops.lean ====
section
/-! DEFINITION. The primitives of the spec's pseudocode (00_scope.md R15) as operations on State: Memory, registers,
stack, sinks and input ports, and the one fault entry, the halt sequence of 60_exceptions.md R205. An operation that
can `raise` answers an `Attempt`. -/

namespace Sys2Proof.Machine

/-! ## Raising -/

/-- The result of an operation that may raise a Step fault (00_scope.md R15). -/
inductive Attempt (α : Type) where
  /-- it completes -/
  | done (a : α)
  /-- it raises a Step fault, with the offending address of an OutOfRange -/
  | raise (c : Cause) (addr : Option Nat)
  /-- it meets a state the spec says does not exist (log entry 10) -/
  | stop (f : Fault)
  deriving Repr

/-- First `x`, then `f` on what it gives; the first `raise` ends the sequence. -/
def Attempt.bind {α β : Type} (x : Attempt α) (f : α → Attempt β) : Attempt β :=
  match x with
  | .done a => f a
  | .raise c addr => .raise c addr
  | .stop e => .stop e

/-- `x`, its result passed through `f`. -/
def Attempt.map {α β : Type} (f : α → β) (x : Attempt α) : Attempt β :=
  x.bind fun a => .done (f a)

/-! ## Outputs -/

/-- `emit`: the output appears on its port now, after all earlier ones (20_memory.md R55, 60_exceptions.md R229). -/
def emit (o : Output) (s : State) : State := { s with outputs := s.outputs ++ [o] }

/-! ## Taking a fault -/

/-- The halt sequence (60_exceptions.md R205), run on the state in which the faulting Step began: nothing of it
changes (R204) but the fault record, `run_state`, `tick_armed` if STOP_WHEN_HALTED, and one EmulationHalted; the
remaining Steps of the batch are dropped. -/
def takeFault (c : Cause) (opcode : Option Word) (addr : Option Nat) (s : State) : State :=
  let detail : FaultRecord := { cause := c, opcode := opcode, pc := s.cpu.pc, addr := addr }
  emit (.emulationHalted detail s.cpu.pc)
    { s with osc := { s.osc with
        fault := some detail
        runState := .halted
        tickArmed := if s.cfg.stopWhenHalted then false else s.osc.tickArmed
        stepsLeft := 0 } }

/-- The outcome of instruction `i` begun in `s`: what it completes with, or the halt sequence on `s` with the
instruction's own word recorded (10_state.md R31; log entry 11). -/
def settle (i : Instr) (s : State) (x : Attempt State) : Result :=
  match x with
  | .done t => .next t
  | .raise c addr => .next (takeFault c (some (encode i)) addr s)
  | .stop f => .fault f

/-! ## Memory -/

/-- The byte at an address of the 4096; an unlisted address reads 0. -/
def Memory.get (m : Memory) (a : Nat) : Byte :=
  match m.cells.find? (fun c => c.1 == a) with
  | some c => c.2
  | none => 0

/-- A new cell put at its place among cells of other addresses. -/
def insertCell (a : Nat) (v : Byte) : List Host.Cell → List Host.Cell
  | [] => [(a, v)]
  | c :: rest => if a < c.1 then (a, v) :: c :: rest else c :: insertCell a v rest

/-- `M[a] <- v` in canonical form: the cell is listed at its place, or not at all when `v` is 0. -/
def Memory.set (m : Memory) (a : Nat) (v : Byte) : Memory :=
  let others := m.cells.filter (fun c => c.1 != a)
  ⟨if v = 0 then others else insertCell a v others⟩

/-- `M[start + k] <- bytes[k]` for every k, ascending (20_memory.md R54). -/
def Memory.setRange (m : Memory) (start : Nat) : List Byte → Memory
  | [] => m
  | b :: bs => (m.set start b).setRange (start + 1) bs

/-- `MemRead(addr, 1)` (20_memory.md R52). -/
def memRead (a : Nat) (s : State) : Attempt Byte :=
  if a < Config.memSize then .done (s.mem.get a) else .raise .outOfRange (some a)

/-- `MemRead(addr, 2)`, the big-endian opcode fetch (20_memory.md R56). -/
def memReadWord (a : Nat) (s : State) : Attempt Word :=
  (memRead a s).bind fun hi => (memRead (a + 1) s).bind fun lo => .done (wordOfBytes hi lo)

/-- `MemWrite(addr, 1, v)`: a notification only if the byte changes (20_memory.md R53). -/
def memWrite (a : Nat) (v : Byte) (s : State) : Attempt State :=
  if a < Config.memSize then
    let old := s.mem.get a
    let t := { s with mem := s.mem.set a v }
    .done (if v = old then t else emit (.memoryModified a old v) t)
  else .raise .outOfRange (some a)

/-- The check of a span of `len` bytes before its first access: OutOfRange at its lowest address of 4096 or more
(40_data_ops.md R110 (c)); an empty span has none. -/
def checkSpan (start len : Nat) : Attempt Unit :=
  if len = 0 ∨ start + len - 1 < Config.memSize then .done ()
  else .raise .outOfRange (some (max start Config.memSize))

/-- `MemWriteRange(start, bytes)`: all or nothing, one range notification, none for no bytes (20_memory.md R54). -/
def memWriteRange (start : Nat) (bytes : List Byte) (s : State) : Attempt State :=
  if bytes.length = 0 then .done s
  else (checkSpan start bytes.length).map fun _ =>
    emit (.memoryRangeModified start (start + bytes.length - 1)) { s with mem := s.mem.setRange start bytes }

/-- `MemClear()` (20_memory.md R57). -/
def memClear (s : State) : State :=
  emit (.memoryRangeModified 0x000 0xFFF) { s with mem := ⟨[]⟩ }

/-- A checked span read byte by byte in ascending order (20_memory.md R59; 40_data_ops.md R124; 42_display_ops.md
R162). -/
def memReadSpan (start len : Nat) (s : State) : Attempt (List Byte) :=
  (checkSpan start len).map fun _ => (List.range len).map fun k => s.mem.get (start + k)

/-! ## Registers -/

/-- `V[x]` (00_scope.md R15). -/
def reg (x : RegIx) (s : State) : Byte := s.cpu.v.get x

/-- `V[x] <- b` (00_scope.md R15). -/
def setReg (x : RegIx) (b : Byte) (s : State) : State :=
  { s with cpu := { s.cpu with v := s.cpu.v.set x.val b x.isLt } }

/-- `V[k] <- bytes[k]`, `V[k+1] <- ...`, ascending (40_data_ops.md R124); a byte beyond VF has no register. -/
def setRegsFrom (k : Nat) : List Byte → State → State
  | [], s => s
  | b :: bs, s => setRegsFrom (k + 1) bs (if h : k < 16 then setReg ⟨k, h⟩ b s else s)

/-- `[V[0], V[1], ..., V[x]]` (40_data_ops.md R123). -/
def regsUpTo (x : RegIx) (s : State) : List Byte := s.cpu.v.toList.take (x.val + 1)

/-- `I <- w`. -/
def setI (w : Word) (s : State) : State := { s with cpu := { s.cpu with i := w } }

/-- `PC <- w` (00_scope.md R15). -/
def setPc (w : Word) (s : State) : State := { s with cpu := { s.cpu with pc := w } }

/-- `PC <- (pc0 + 2) mod 65536`, "advance before execute" (30_encoding.md R86). -/
def advance (s : State) : State := setPc (s.cpu.pc + 2) s

/-- `if c: PC <- (PC + 2) mod 65536`, a skip over one instruction (41_control_ops.md R140). -/
def skipIf (c : Bool) (s : State) : State := if c then setPc (s.cpu.pc + 2) s else s

/-! ## Stack -/

/-- Push (10_state.md R27): StackOverflow when 16 entries are in use. -/
def push (a : Word) (s : State) : Attempt State :=
  if s.cpu.sp = 16 then .raise .stackOverflow none
  else if h : s.cpu.sp.toNat < 16 then
    .done { s with cpu := { s.cpu with stack := s.cpu.stack.set s.cpu.sp.toNat a h, sp := s.cpu.sp + 1 } }
  else .stop .stackPointerAboveCapacity

/-- Pop (10_state.md R27): StackUnderflow when no entry is in use; the slot keeps its value. -/
def pop (s : State) : Attempt (Word × State) :=
  if s.cpu.sp = 0 then .raise .stackUnderflow none
  else if h : s.cpu.sp.toNat - 1 < 16 then
    .done (s.cpu.stack[s.cpu.sp.toNat - 1], { s with cpu := { s.cpu with sp := s.cpu.sp - 1 } })
  else .stop .stackPointerAboveCapacity

/-! ## Display sink -/

/-- `FB[x][y]`. -/
def Display.get (fb : Display) (x : Fin 64) (y : Fin 32) : Bool := (Vector.get fb x).get y

/-- `FB[x][y] <- on`. -/
def Display.set (fb : Display) (x : Fin 64) (y : Fin 32) (on : Bool) : Display :=
  Vector.set fb x.val ((Vector.get fb x).set y.val on y.isLt) x.isLt

/-- `DispClear()` (00_scope.md R11). -/
def dispClear (s : State) : State := emit .displayClear { s with fb := Display.blank }

/-- `DispGet(x, y)` (00_scope.md R11). -/
def dispGet (x : Fin 64) (y : Fin 32) (s : State) : Bool := Display.get s.fb x y

/-- `DispSet(x, y, on)` (00_scope.md R11). -/
def dispSet (x : Fin 64) (y : Fin 32) (on : Bool) (s : State) : State :=
  emit (.displaySetPixel x y on) { s with fb := Display.set s.fb x y on }

/-! ## Sound timer and Buzzer sink -/

/-- `ST <- v`, with `BuzzerPlay()` when ST goes from 0 to non-zero and `BuzzerStop()` when it goes from non-zero to 0,
whatever causes it (60_exceptions.md R231). -/
def writeSt (v : Byte) (s : State) : State :=
  let t := { s with cpu := { s.cpu with st := v } }
  if s.cpu.st = 0 ∧ v ≠ 0 then emit .buzzerPlay { t with buzzing := true }
  else if s.cpu.st ≠ 0 ∧ v = 0 then emit .buzzerStop { t with buzzing := false }
  else t

/-- `DT <- v`; no device is signalled (43_timer_ops.md R172). -/
def writeDt (v : Byte) (s : State) : State := { s with cpu := { s.cpu with dt := v } }

/-! ## Input ports -/

/-- The level that the next sample of `keys` will see: the environment's, or a free value (log entry 7). -/
def nextKeys (e : Environment) : Word :=
  match e.keyLevels with
  | level :: _ => level
  | [] => Config.keyLevel e.keySamples

/-- The environment after one sample of `keys`. -/
def afterKeys (s : State) : State :=
  { s with env := { s.env with keyLevels := s.env.keyLevels.tail, keySamples := s.env.keySamples + 1 } }

/-- The byte that the next draw of `rand` will see: the environment's, or a free value (log entry 8). -/
def nextRand (e : Environment) : Byte :=
  match e.randDraws with
  | b :: _ => b
  | [] => Config.randByte e.randCount

/-- The environment after one draw of `rand`. -/
def afterRand (s : State) : State :=
  { s with env := { s.env with randDraws := s.env.randDraws.tail, randCount := s.env.randCount + 1 } }

end Sys2Proof.Machine
end

