-- ==== Sys2Proof/Machine/Oscillator.lean ====
section
/-! DEFINITION. The Oscillator (60_exceptions.md R220 to R230): how a tick begins, how many Steps it runs, and what
follows the Steps. -/

namespace Sys2Proof.Machine

/-- The size of an Astable tick's batch: `total div TICK_HZ`, at least one (R226). -/
def batchSize (total tickHz : Nat) : Nat := max (total / tickHz) 1

/-- The beginning of an Astable tick: `n` and `acc` from `total = acc + SPEED_HZ` (R226, R227). -/
def beginAstable (s : State) : Result :=
  if s.cfg.tickHz = 0 then .fault .tickFrequencyZero
  else
    let total := s.osc.acc + s.cfg.speedHz
    .next { s with osc := { s.osc with acc := total % s.cfg.tickHz, stepsLeft := batchSize total s.cfg.tickHz } }

/-- The beginning of a Monostable tick: exactly one Step, whatever SPEED_HZ is; `acc` is not changed (R225). -/
def beginMonostable (s : State) : Result := .next { s with osc := { s.osc with stepsLeft := 1 } }

/-- One tick pulse (R224): ignored while the ticks are disarmed, only counted while not Running. -/
def beginTick (s : State) : Result :=
  if s.osc.tickArmed = false then .next s
  else
    let t := { s with osc := { s.osc with elapsedTicks := s.osc.elapsedTicks + 1 } }
    if s.osc.runState ≠ .running then .next t
    else match s.cfg.mode with
      | .monostable => beginMonostable t
      | .astable => beginAstable t

/-- `TimerDecay()`: each timer that is not 0 goes down by 1; ST reaching 0 stops the Buzzer (R228). -/
def timerDecay (s : State) : State :=
  let t := if s.cpu.dt = 0 then s else writeDt (s.cpu.dt - 1) s
  if t.cpu.st = 0 then t else writeSt (t.cpu.st - 1) t

/-- What follows the last Step of a tick that did not fault: the timer decay in an Astable tick (R227), Stopped,
disarmed and CycleStepped in a Monostable one (R225). -/
def endTick (s : State) : State :=
  match s.cfg.mode with
  | .astable => timerDecay s
  | .monostable => emit .cycleStepped { s with osc := { s.osc with runState := .stopped, tickArmed := false } }

/-- What the Oscillator does after one Step of its batch: nothing more if the Step faulted (the halt sequence has set
`stepsLeft` to 0, R205), the end of the tick after the last Step, else the next Step is due (R227). -/
def finishStep (s : State) : State :=
  match s.osc.stepsLeft with
  | 0 => s
  | 1 => endTick { s with osc := { s.osc with stepsLeft := 0 } }
  | k + 2 => { s with osc := { s.osc with stepsLeft := k + 1 } }

end Sys2Proof.Machine
end

