-- ==== Sys2Proof/Machine/Commands.lean ====
section
/-! DEFINITION. Construction, the resets, program loading and the other host commands (70_reset_and_hazards.md;
60_exceptions.md R221 to R223), each whole and between ticks (00_scope.md R9). -/

namespace Sys2Proof.Machine

/-- An image written into Memory by one `MemWriteRange` (20_memory.md R54); `none` where it does not fit, which no
stored image does (log entry 10). -/
def loadImage (start : Nat) (image : List Byte) (s : State) : Option State :=
  match memWriteRange start image s with
  | .done t => some t
  | _ => none

/-- `if program != none: MemWriteRange(0x200, program)` (R252, R253). -/
def reloadProgram (s : State) : Option State :=
  match s.program with
  | none => some s
  | some image => loadImage Config.progBase image s

/-- `if CLEAR_SCREEN_ON_RESET: DispClear()` (R260). -/
def clearScreenIfSet (s : State) : State := if s.cfg.clearScreenOnReset then dispClear s else s

/-- `ResetProcessor()`: every register, stack entry and timer 0, PC 0x200, and `BuzzerStop()` if ST was not 0 (R256,
R261). -/
def resetProcessor (s : State) : State :=
  writeSt 0 { s with cpu := { Processor.initial with st := s.cpu.st } }

/-- `ResetOscillator()` (R256). -/
def resetOscillator (s : State) : State := { s with osc := Oscillator.initial }

/-- `PowerCycle()`, the cold reset (R252). -/
def powerCycle (s : State) : Option State :=
  (loadImage s.cfg.fontBase.toNat s.cfg.fontImage (memClear s)).bind fun t =>
    (reloadProgram (clearScreenIfSet t)).map fun u => resetOscillator (resetProcessor u)

/-- `Restart()`, the warm reset (R253). -/
def restart (s : State) : Option State :=
  (reloadProgram (clearScreenIfSet s)).map fun u => resetOscillator (resetProcessor u)

/-- `Start()` (R221). -/
def start (s : State) : State :=
  { s with osc := { s.osc with runState := .running, fault := none, tickArmed := true } }

/-- `Stop()` (R222). -/
def stop (s : State) : State :=
  { s with osc := { s.osc with
      runState := if s.osc.runState = .running then .stopped else s.osc.runState
      tickArmed := false } }

/-- `SetOptionFlag(flag, b)` (R257). -/
def setOptionFlag (flag : OptionFlag) (b : Bool) (s : State) : State :=
  match flag with
  | .clearScreenOnReset => { s with cfg := { s.cfg with clearScreenOnReset := b } }
  | .modifyIOnFx55AndFx65 => { s with cfg := { s.cfg with modifyI := b } }

/-- The value of an option flag (R257). -/
def optionFlag (flag : OptionFlag) (s : State) : Bool :=
  match flag with
  | .clearScreenOnReset => s.cfg.clearScreenOnReset
  | .modifyIOnFx55AndFx65 => s.cfg.modifyI

/-- `LoadProgram(image)`: an image of more than 3584 bytes is rejected with nothing changed (R255), any other becomes
the stored program and is written at 0x200 (R254). -/
def loadProgram (image : List Byte) (s : State) : Option State :=
  if Config.progMax < image.length then some (emit (.programTooLarge image.length) s)
  else loadImage Config.progBase image { s with program := some image }

/-- A command's outcome: a stored image that does not fit is a state the spec excludes (log entry 10). -/
def commandResult (x : Option State) : Result :=
  match x with
  | some t => .next t
  | none => .fault .imageOutsideMemory

/-- What one input does: a tick pulse begins a tick, a command takes its whole effect (00_scope.md R9). -/
def applyInput (i : Input) (s : State) : Result :=
  match i with
  | .tick => beginTick s
  | .start => .next (start s)
  | .stop => .next (stop s)
  | .setMode m => .next { s with cfg := { s.cfg with mode := m } }
  | .setSpeed hz => .next { s with cfg := { s.cfg with speedHz := hz } }
  | .setOptionFlag flag b => .next (setOptionFlag flag b s)
  | .getOptionFlag flag => .next (emit (.optionFlag flag (optionFlag flag s)) s)
  | .loadProgram image => commandResult (loadProgram image s)
  | .powerCycle => commandResult (powerCycle s)
  | .restart => commandResult (restart s)

/-- The next input of the environment takes effect; with none in store nothing happens (60_exceptions.md R235: "only a
host command changes anything"; log entry 5). -/
def takeInput (s : State) : Result :=
  match s.env.inputs with
  | [] => .next s
  | i :: rest => applyInput i { s with env := { s.env with inputs := rest } }

/-- Construction with the given straps, whose font image fits below the program (R251, R259): every other piece of
state as `State.reset` has it, `mode` Astable, the font image in Memory, and no notification. -/
def construct (c : Configuration) : State :=
  { State.reset with
    cfg := { c with mode := .astable }
    mem := (⟨[]⟩ : Memory).setRange c.fontBase.toNat c.fontImage }

end Sys2Proof.Machine
end

