-- ==== Sys2Proof/Machine/Cycle.lean ====
section
/-! DEFINITION. What the machine does next: between ticks it takes an input; inside a tick it fetches and decodes the
next instruction, and a fault of either phase ends the Step (30_encoding.md R86; 60_exceptions.md R207, R229). -/

namespace Sys2Proof.Machine

/-- What one step comes to before anything is executed. -/
inductive Action where
  /-- the step is already decided: an input was taken, or the fetch or the decode faulted -/
  | settled (r : Result)
  /-- this instruction is to be executed -/
  | execute (i : Instr)

/-- The decode phase on the word fetched: UnknownOpcode when no row matches (30_encoding.md R86, R96). -/
def decodePhase (op : Word) (s : State) : Action :=
  match decodeWord op with
  | none => .settled (.next (takeFault .unknownOpcode (some op) none s))
  | some i => .execute i

/-- The fetch phase at PC: OutOfRange, recorded with no opcode, when one of the two bytes is outside Memory
(60_exceptions.md R200, R201); then the decode phase. -/
def fetchPhase (s : State) : Action :=
  match memReadWord s.cpu.pc.toNat s with
  | .done op => decodePhase op s
  | .raise c addr => .settled (.next (takeFault c none addr s))
  | .stop f => .settled (.fault f)

/-- Between ticks an input, inside a tick the next Step of the batch (60_exceptions.md R229). -/
def nextAction (s : State) : Action :=
  if s.osc.stepsLeft = 0 then .settled (takeInput s) else fetchPhase s

/-- The Oscillator's part after an executed instruction. -/
def afterExec (r : Result) : Result :=
  match r with
  | .next t => .next (finishStep t)
  | .fault f => .fault f
  | .refused f => .refused f

/-- A tick in progress with the Step about to run: Running and armed, as `Start()` and a tick leave it. In an Astable
tick one more Step follows, so that the coming step runs its instruction and nothing else (log entry 6). -/
def withTickInProgress (s : State) : State :=
  { s with osc := { s.osc with
      runState := .running
      tickArmed := true
      fault := none
      stepsLeft := match s.cfg.mode with
        | .astable => 2
        | .monostable => 1 } }

/-- A table word stored at PC, the high byte first (20_memory.md R56; log entry 6). -/
def placeWord (nbits w : Nat) (s : State) : State :=
  { s with mem := s.mem.setRange s.cpu.pc.toNat [highByte (tableWord nbits w), lowByte (tableWord nbits w)] }

end Sys2Proof.Machine
end

