-- ==== Sys2Proof/Machine/Operands.lean ====
section
/-! DEFINITION. How an instruction reads its operands (30_encoding.md R83): the reductions of a register value to a key
index, a font digit and a screen position, the digits of a byte, and the pixels a sprite covers. -/

namespace Sys2Proof.Machine

/-- A key index: `V[x] & 0xF` (44_input_ops.md R180). -/
def keyIndex (b : Byte) : Nat := (b &&& 0xF).toNat

/-- The address of a digit sprite: `FONT_BASE + 5 * (V[x] & 0xF)` (45_misc_ops.md R192). -/
def fontAddress (base : Addr) (b : Byte) : Word := BitVec.ofNat 16 (base.toNat + 5 * (b &&& 0xF).toNat)

/-- `keys[k] = 1` (44_input_ops.md R180). -/
def keyDown (keys : Word) (k : Nat) : Bool := keys.getLsbD k

/-- The least `k` in 0..15 with `keys[k] = 1`, if any key is down (44_input_ops.md R183). -/
def lowestKey (keys : Word) : Option Nat := (List.range 16).find? (keyDown keys)

/-- The hundreds, tens and ones digit of a byte (45_misc_ops.md R194). -/
def bcdDigits (v : Byte) : Byte × Byte × Byte :=
  (BitVec.ofNat 8 (v.toNat / 100), BitVec.ofNat 8 (v.toNat / 10 % 10), BitVec.ofNat 8 (v.toNat % 10))

/-- The pixel of column `c` of a sprite row `b` at display row `py`, if its bit is 1 and it is inside the display: bit 7
is the leftmost, columns past the right edge are clipped (42_display_ops.md R162). -/
def spritePixel (x0 : Nat) (py : Fin 32) (b : Byte) (c : Nat) : Option (Fin 64 × Fin 32) :=
  if h : x0 + c < 64 then (if b.getLsbD (7 - c) then some (⟨x0 + c, h⟩, py) else none) else none

/-- The pixels of one sprite row, left to right; a row below the bottom edge is clipped (42_display_ops.md R162). -/
def spriteRow (x0 py : Nat) (b : Byte) : List (Fin 64 × Fin 32) :=
  if h : py < 32 then (List.range 8).filterMap (spritePixel x0 ⟨py, h⟩ b) else []

/-- The pixels a sprite inverts, rows top to bottom, columns left to right (42_display_ops.md R162). -/
def spritePixels (x0 y0 : Nat) : List Byte → List (Fin 64 × Fin 32)
  | [] => []
  | b :: rows => spriteRow x0 y0 b ++ spritePixels x0 (y0 + 1) rows

end Sys2Proof.Machine
end

