-- ==== Sys2Proof/Machine/Control.lean ====
section
/-! DEFINITION. The control operations (41_control_ops.md). On the advanced state PC is `pc0 + 2` (R140). -/

namespace Sys2Proof.Machine

/-- `PC <- zext_16(nnn)` (R141). -/
def execJp (nnn : Addr) (s : State) : Result := .next (setPc (zext16 nnn) (advance s))

/-- `PC <- (zext_16(nnn) + zext_16(V[0])) mod 65536`, always V0 (R144). -/
def execJpV0 (nnn : Addr) (s : State) : Result :=
  .next (setPc (zext16 nnn + zextByte (reg 0 s)) (advance s))

/-- Push the advanced PC, then `PC <- zext_16(nnn)`; StackOverflow when SP = 16 (R142). -/
def execCall (nnn : Addr) (s : State) : Result :=
  settle (.call nnn) s ((push (advance s).cpu.pc (advance s)).map (setPc (zext16 nnn)))

/-- Pop into PC; StackUnderflow when SP = 0 (R143). -/
def execRet (s : State) : Result :=
  settle .ret s ((pop (advance s)).map fun p => setPc p.1 p.2)

/-- `if V[x] = kk: PC <- PC + 2` (R145). -/
def execSeImm (x : RegIx) (kk : Byte) (s : State) : Result := .next (skipIf (reg x s == kk) (advance s))

/-- `if V[x] != kk: PC <- PC + 2` (R146). -/
def execSneImm (x : RegIx) (kk : Byte) (s : State) : Result := .next (skipIf (reg x s != kk) (advance s))

/-- `if V[x] = V[y]: PC <- PC + 2` (R147). -/
def execSeReg (x y : RegIx) (s : State) : Result := .next (skipIf (reg x s == reg y s) (advance s))

/-- `if V[x] != V[y]: PC <- PC + 2` (R148). -/
def execSneReg (x y : RegIx) (s : State) : Result := .next (skipIf (reg x s != reg y s) (advance s))

end Sys2Proof.Machine
end

