-- ==== Sys2Proof/Machine/Flags.lean ====
section
/-! DEFINITION. The flag computations, all of them written to VF as the byte 0x00 or 0x01 (10_state.md R21;
40_data_ops.md R110). -/

namespace Sys2Proof.Machine

/-- "The flag is always written as the 8-bit value 0x00 or 0x01" (40_data_ops.md R110). -/
def flagByte (b : Bool) : Byte := if b then 1 else 0

/-- The carry out of bit 7: the exact sum is above 255 (40_data_ops.md R117). -/
def carryOut (a b : Byte) : Bool := decide (255 < a.toNat + b.toNat)

/-- No borrow of `a - b`: `a >= b` (40_data_ops.md R118, R120). -/
def noBorrow (a b : Byte) : Bool := decide (b.toNat ≤ a.toNat)

/-- `a[0]`, the bit a right shift by one loses (40_data_ops.md R119). -/
def lostRight (a : Byte) : Bool := a.getLsbD 0

/-- `a[7]`, the bit a left shift by one loses (40_data_ops.md R121). -/
def lostLeft (a : Byte) : Bool := a.getLsbD 7

/-- Register 15, VF (10_state.md R21). -/
abbrev vf : RegIx := 15

/-- The result to `V[x]` first, the flag to VF second, so that with `x = 15` the flag is what stays
(40_data_ops.md R110 (b)). -/
def setResultAndFlag (x : RegIx) (result : Byte) (flag : Bool) (s : State) : State :=
  setReg vf (flagByte flag) (setReg x result s)

/-- One pixel of a draw: `old <- DispGet; DispSet(not old); if old = 1: hit <- 1` (42_display_ops.md R162). -/
def drawPixel (acc : State × Bool) (p : Fin 64 × Fin 32) : State × Bool :=
  let old := dispGet p.1 p.2 acc.1
  (dispSet p.1 p.2 (!old) acc.1, acc.2 || old)

/-- All pixels of a draw in order, and whether any of them was on (42_display_ops.md R162). -/
def drawPixels (ps : List (Fin 64 × Fin 32)) (s : State) : State × Bool := ps.foldl drawPixel (s, false)

end Sys2Proof.Machine
end

