-- ==== Sys2Proof/Machine/Data.lean ====
section
/-! DEFINITION. The data operations (40_data_ops.md). Every meaning takes the state at the start of the Step, in which
PC is `pc0`, and runs its pseudocode on the advanced state (30_encoding.md R86); a fault falls back on the former
(60_exceptions.md R204). Operands are read before anything is written (R110 (a)). -/

namespace Sys2Proof.Machine

/-- `V[x] <- kk` (R111). -/
def execLdImm (x : RegIx) (kk : Byte) (s : State) : Result := .next (setReg x kk (advance s))

/-- `V[x] <- (V[x] + kk) mod 256`, no flag (R112). -/
def execAddImm (x : RegIx) (kk : Byte) (s : State) : Result := .next (setReg x (reg x s + kk) (advance s))

/-- `V[x] <- V[y]` (R113). -/
def execLdReg (x y : RegIx) (s : State) : Result := .next (setReg x (reg y s) (advance s))

/-- `V[x] <- V[x] | V[y]`, VF unchanged unless `x = 15` (R114). -/
def execOrReg (x y : RegIx) (s : State) : Result := .next (setReg x (reg x s ||| reg y s) (advance s))

/-- `V[x] <- V[x] & V[y]`, VF unchanged unless `x = 15` (R115). -/
def execAndReg (x y : RegIx) (s : State) : Result := .next (setReg x (reg x s &&& reg y s) (advance s))

/-- `V[x] <- V[x] ^ V[y]`, VF unchanged unless `x = 15` (R116). -/
def execXorReg (x y : RegIx) (s : State) : Result := .next (setReg x (reg x s ^^^ reg y s) (advance s))

/-- `V[x] <- (a + b) mod 256`, then VF = carry (R117). -/
def execAddReg (x y : RegIx) (s : State) : Result :=
  .next (setResultAndFlag x (reg x s + reg y s) (carryOut (reg x s) (reg y s)) (advance s))

/-- `V[x] <- (a - b) mod 256`, then VF = 1 for no borrow (R118). -/
def execSubReg (x y : RegIx) (s : State) : Result :=
  .next (setResultAndFlag x (reg x s - reg y s) (noBorrow (reg x s) (reg y s)) (advance s))

/-- `V[x] <- a >> 1`, then VF = the bit shifted out; `y` is ignored (R119). -/
def execShr (x _y : RegIx) (s : State) : Result :=
  .next (setResultAndFlag x (reg x s >>> 1) (lostRight (reg x s)) (advance s))

/-- `V[x] <- (b - a) mod 256`, then VF = 1 for no borrow (R120). -/
def execSubnReg (x y : RegIx) (s : State) : Result :=
  .next (setResultAndFlag x (reg y s - reg x s) (noBorrow (reg y s) (reg x s)) (advance s))

/-- `V[x] <- (a << 1) mod 256`, then VF = the bit shifted out; `y` is ignored (R121). -/
def execShl (x _y : RegIx) (s : State) : Result :=
  .next (setResultAndFlag x (reg x s <<< 1) (lostLeft (reg x s)) (advance s))

/-- `I <- zext_16(nnn)` (R122). -/
def execLdI (nnn : Addr) (s : State) : Result := .next (setI (zext16 nnn) (advance s))

/-- The index update of the two block instructions: `I <- (I + x + 1) mod 65536` if MODIFY_I (R126). -/
def blockIndexUpdate (x : RegIx) (s : State) : State :=
  if s.cfg.modifyI then setI (s.cpu.i + BitVec.ofNat 16 (x.val + 1)) s else s

/-- `LD [I], Vx`: one MemWriteRange of V0 to Vx at I, then the index update (R123). -/
def execStoreRegs (x : RegIx) (s : State) : Result :=
  settle (.storeRegs x) s
    ((memWriteRange s.cpu.i.toNat (regsUpTo x s) (advance s)).map (blockIndexUpdate x))

/-- `LD Vx, [I]`: V0 to Vx from I upward, then the index update (R124). -/
def execLoadRegs (x : RegIx) (s : State) : Result :=
  settle (.loadRegs x) s
    ((memReadSpan s.cpu.i.toNat (x.val + 1) s).map fun bytes =>
      blockIndexUpdate x (setRegsFrom 0 bytes (advance s)))

end Sys2Proof.Machine
end

