-- ==== Sys2Proof/Machine/Display.lean ====
section
/-! DEFINITION. The display operations (42_display_ops.md). -/

namespace Sys2Proof.Machine

/-- `DispClear()`; VF is not written (R161). -/
def execCls (s : State) : Result := .next (dispClear (advance s))

/-- `DRW Vx, Vy, n`: the sprite bytes from I, checked as one span of `n` bytes, are drawn from
`(V[x] mod 64, V[y] mod 32)`, inverting a pixel for each 1 bit inside the display; VF is the collision, written last and
on every execution (R162). -/
def execDrw (x y : RegIx) (n : Nibble) (s : State) : Result :=
  settle (.drw x y n) s
    ((memReadSpan s.cpu.i.toNat n.toNat s).map fun rows =>
      let drawn := drawPixels (spritePixels ((reg x s).toNat % 64) ((reg y s).toNat % 32) rows) (advance s)
      setReg vf (flagByte drawn.2) drawn.1)

end Sys2Proof.Machine
end

