-- ==== Sys2Proof/Machine/Input.lean ====
section
/-! DEFINITION. The input operations (44_input_ops.md). Each samples the port `keys` once (R180). -/

namespace Sys2Proof.Machine

/-- `if keys[V[x] & 0xF] = 1: PC <- PC + 2` (R181). -/
def execSkp (x : RegIx) (s : State) : Result :=
  .next (skipIf (keyDown (nextKeys s.env) (keyIndex (reg x s))) (advance (afterKeys s)))

/-- `if keys[V[x] & 0xF] = 0: PC <- PC + 2` (R182). -/
def execSknp (x : RegIx) (s : State) : Result :=
  .next (skipIf (!keyDown (nextKeys s.env) (keyIndex (reg x s))) (advance (afterKeys s)))

/-- Wait for a key: with none down PC goes back to `pc0`, so that the next Step runs this instruction again; else
`V[x]` is the lowest key down (R183). -/
def execLdVxK (x : RegIx) (s : State) : Result :=
  .next
    (match lowestKey (nextKeys s.env) with
     | none => setPc ((advance (afterKeys s)).cpu.pc - 2) (advance (afterKeys s))
     | some k => setReg x (BitVec.ofNat 8 k) (advance (afterKeys s)))

end Sys2Proof.Machine
end

