-- ==== Sys2Proof/Machine/Misc.lean ====
section
/-! DEFINITION. The miscellaneous operations (45_misc_ops.md). -/

namespace Sys2Proof.Machine

/-- `I <- (I + zext_16(V[x])) mod 65536`, VF not written (R191). -/
def execAddI (x : RegIx) (s : State) : Result := .next (setI (s.cpu.i + zextByte (reg x s)) (advance s))

/-- `I <- FONT_BASE + 5 * (V[x] & 0xF)` (R192). -/
def execLdF (x : RegIx) (s : State) : Result := .next (setI (fontAddress s.cfg.fontBase (reg x s)) (advance s))

/-- `V[x] <- rand & kk`, one draw (R193). -/
def execRnd (x : RegIx) (kk : Byte) (s : State) : Result :=
  .next (setReg x (nextRand s.env &&& kk) (advance (afterRand s)))

/-- The three digits of a byte stored at I, I+1, I+2 by three MemWrites, after one check of the span (R194). -/
def storeDigits (i : Nat) (d : Byte × Byte × Byte) (s : State) : Attempt State :=
  (checkSpan i 3).bind fun _ =>
    (memWrite i d.1 s).bind fun s1 => (memWrite (i + 1) d.2.1 s1).bind fun s2 => memWrite (i + 2) d.2.2 s2

/-- `LD B, Vx` (R194). -/
def execLdB (x : RegIx) (s : State) : Result :=
  settle (.ldB x) s (storeDigits s.cpu.i.toNat (bcdDigits (reg x s)) (advance s))

end Sys2Proof.Machine
end

