-- ==== Sys2Proof/Machine/Timer.lean ====
section
/-! DEFINITION. The timer operations (43_timer_ops.md). -/

namespace Sys2Proof.Machine

/-- `V[x] <- DT` (R171). -/
def execLdVxDt (x : RegIx) (s : State) : Result := .next (setReg x s.cpu.dt (advance s))

/-- `DT <- V[x]` (R172). -/
def execLdDtVx (x : RegIx) (s : State) : Result := .next (writeDt (reg x s) (advance s))

/-- `ST <- V[x]`, with the Buzzer call of its transition (R173). -/
def execLdStVx (x : RegIx) (s : State) : Result := .next (writeSt (reg x s) (advance s))

end Sys2Proof.Machine
end

