-- ==== Sys2Proof/Machine/Step.lean ====
section
/-! DEFINITION. One step of the machine: one input between ticks, or one Step of the tick in progress together with
what ends the tick when it was the last (log entry 4). -/

namespace Sys2Proof.Machine

/-- One step of the machine. -/
def step (s : State) : Host.Outcome State Fault Refusal :=
  match nextAction s with
  | .settled r => r
  | .execute i => afterExec (exec i s)

/-- `s` with the table word stored where the next Step fetches, and a tick in progress, so that the very next step runs
it (log entry 6). -/
def State.withFetchWord (s : State) (nbits w : Nat) : State := withTickInProgress (placeWord nbits w s)

end Sys2Proof.Machine
end

