-- ==== Sys2Proof/Safety.lean ====
section
/-! DEFINITION. The terms in which claims about the machine are stated: the state a Step fault leaves, what a Step is
about to fetch, the pixels a sprite covers, and the invariant of every state a run from `State.reset` reaches. They are
written from the rules, not from the operations they are compared with. -/

namespace Sys2Proof.Machine

/-- The state the halt sequence leaves (60_exceptions.md R204, R205): the fault recorded, Halted, the ticks disarmed if
STOP_WHEN_HALTED, the batch dropped, one EmulationHalted put out, and everything else as it was. -/
def haltedState (s : State) (d : FaultRecord) : State :=
  { s with
    osc :=
      { runState := .halted
        tickArmed := s.osc.tickArmed && !s.cfg.stopWhenHalted
        acc := s.osc.acc
        elapsedTicks := s.osc.elapsedTicks
        fault := some d
        stepsLeft := 0 }
    outputs := s.outputs ++ [.emulationHalted d s.cpu.pc] }

/-- A tick is in progress, so that the next step is a Step of the Processor (60_exceptions.md R227). -/
def inTick (s : State) : Prop := s.osc.stepsLeft ≠ 0

/-- The two bytes at PC lie in Memory and make the word `op` (20_memory.md R56). -/
def fetches (s : State) (op : Word) : Prop :=
  s.cpu.pc.toNat + 1 < 4096 ∧
    op = wordOfBytes (s.mem.get s.cpu.pc.toNat) (s.mem.get (s.cpu.pc.toNat + 1))

/-- The state after an instruction that changes only general registers and goes on with the next one. -/
def withRegs (s : State) (v : Vector Byte 16) : State :=
  { s with cpu := { s.cpu with v := v, pc := s.cpu.pc + 2 } }

/-- The state after an instruction that changes only I and goes on with the next one. -/
def withIndex (s : State) (w : Word) : State :=
  { s with cpu := { s.cpu with i := w, pc := s.cpu.pc + 2 } }

/-- The state after an instruction that changes only PC. -/
def withPc (s : State) (w : Word) : State := { s with cpu := { s.cpu with pc := w } }

/-- `i` completes in `s` and changes nothing but PC, which goes to the next instruction, and `V[x]`, which becomes
`b`. -/
def writesOnly (i : Instr) (s : State) (x : RegIx) (b : Byte) : Prop :=
  ∃ v, exec i s = .next (withRegs s v) ∧ ∀ k, v.get k = if k = x then b else s.cpu.v.get k

/-- `i` completes in `s` and changes nothing but PC, which goes to the next instruction, `V[x]`, which becomes
`result`, and VF, which becomes `flag`, also when `x = 15` (40_data_ops.md R110). -/
def writesResultAndFlag (i : Instr) (s : State) (x : RegIx) (result flag : Nat) : Prop :=
  ∃ v, exec i s = .next (withRegs s v) ∧
    ∀ k, (v.get k).toNat = if k = 15 then flag else if k = x then result else (s.cpu.v.get k).toNat

/-- The notification of one byte written over another: none when they are equal (20_memory.md R53). -/
def byteEvent (a : Nat) (old new : Byte) : List Output :=
  if new = old then [] else [.memoryModified a old new]

/-- The notification of a range write of `len` bytes: none for no bytes (20_memory.md R54). -/
def rangeEvent (start len : Nat) : List Output :=
  if len = 0 then [] else [.memoryRangeModified start (start + len - 1)]

/-- Between ticks, with `i` the next input; `rest` are the inputs after it. -/
def nextInput (s : State) (i : Input) (rest : List Input) : Prop :=
  s.osc.stepsLeft = 0 ∧ s.env.inputs = i :: rest

/-- `s` with the next input taken away. -/
def inputTaken (s : State) (rest : List Input) : State := { s with env := { s.env with inputs := rest } }

/-- A sample of `keys` in `s` sees `keys` and leaves `later` in store: the environment's next level, or, with none in
store, the free value of this sample (44_input_ops.md R180; log entry 7). Every state samples some level. -/
def samplesKeys (s : State) (keys : Word) (later : List Word) : Prop :=
  s.env.keyLevels = keys :: later ∨
    (s.env.keyLevels = [] ∧ later = [] ∧ keys = Config.keyLevel s.env.keySamples)

/-- A draw of `rand` in `s` sees `b` and leaves `later` in store: the environment's next byte, or, with none in store,
the free value of this draw (45_misc_ops.md R193; log entry 8). Every state draws some byte. -/
def drawsRand (s : State) (b : Byte) (later : List Byte) : Prop :=
  s.env.randDraws = b :: later ∨
    (s.env.randDraws = [] ∧ later = [] ∧ b = Config.randByte s.env.randCount)

/-- Pixel `(px, py)` lies under a 1 bit of the `n`-row sprite at address `i` drawn from `(x0, y0)`; a pixel outside the
display does not exist, so clipping needs no word (42_display_ops.md R162). -/
def covers (s : State) (x0 y0 n i : Nat) (px : Fin 64) (py : Fin 32) : Prop :=
  x0 ≤ px.val ∧ px.val < x0 + 8 ∧ y0 ≤ py.val ∧ py.val < y0 + n ∧
    (s.mem.get (i + (py.val - y0))).getLsbD (7 - (px.val - x0)) = true

/-- The invariant of every state a run from `State.reset` reaches. -/
structure Inv (s : State) : Prop where
  /-- Memory is in canonical form (model) -/
  memWf : s.mem.wf
  /-- "SP never holds a value above 16" (10_state.md R27) -/
  spBound : s.cpu.sp.toNat ≤ 16
  /-- the values PC can take end at 0xFFF + 0xFF (10_state.md R25) -/
  pcBound : s.cpu.pc.toNat ≤ 0x10FE
  /-- a stack entry is 0 or some `pc0 + 2 <= 0x1000` (41_control_ops.md R143) -/
  stackBound : ∀ k : Fin 16, (s.cpu.stack.get k).toNat ≤ 0x1000
  /-- "`buzzing = (ST != 0)` holds at every point between operations" (60_exceptions.md R231) -/
  buzzer : s.buzzing = true ↔ s.cpu.st ≠ 0
  /-- TICK_HZ is a positive integer (00_scope.md R7) -/
  tickHzPos : 0 < s.cfg.tickHz
  /-- `0 <= acc < TICK_HZ` (10_state.md R30) -/
  accBound : s.osc.acc < s.cfg.tickHz
  /-- the font image ends below the program (70_reset_and_hazards.md R259) -/
  fontFits : s.cfg.fontBase.toNat + s.cfg.fontImage.length ≤ 0x200
  /-- the stored program has at most 3584 bytes (10_state.md R33) -/
  programFits : ∀ image, s.program = some image → image.length ≤ 3584
  /-- a fault is recorded exactly while Halted (10_state.md R31) -/
  faultIffHalted : s.osc.fault ≠ none ↔ s.osc.runState = .halted
  /-- "Stopped cannot occur with tick_armed = 1" (60_exceptions.md R224) -/
  stoppedDisarmed : s.osc.runState = .stopped → s.osc.tickArmed = false
  /-- Running is left by every disarming (60_exceptions.md R221, R222, R225) -/
  runningArmed : s.osc.runState = .running → s.osc.tickArmed = true
  /-- Steps run only while Running (60_exceptions.md R224) -/
  batchRunning : s.osc.stepsLeft ≠ 0 → s.osc.runState = .running
  /-- a Monostable tick has one Step (60_exceptions.md R225) -/
  monostableSingle : s.cfg.mode = .monostable → s.osc.stepsLeft ≤ 1

/-- The machine gets from one state to another in some number of steps. -/
inductive Reaches : State → State → Prop where
  | refl (s : State) : Reaches s s
  | next {s t u : State} : Reaches s t → step t = .next u → Reaches s u

end Sys2Proof.Machine
end

