-- ==== Sys2Proof/Certificates/Slice0/Obligations.lean ====
section
/-! DEFINITION. The statements about the machine, each from the rules its docstring names. Addresses, register values
and timers are compared as numbers where the rule computes on integers. -/

open Sys2Proof Sys2Proof.Machine

/-! ## Encoding -/

/-- R88: encoding what a word decodes to gives the word back, and decoding `Encode(row, fields)` gives the row and the
fields back, for every row and every field value in range. -/
def Obligations.DecodeAndEncodeRoundTrip : Prop :=
  (∀ (op : Word) (i : Instr), decodeWord op = some i → encode i = op) ∧
  (∀ (r : Op) (f : Fields), f.wellFormed r.format = true →
    ∃ i, Instr.ofFields r f = some i ∧ i.op = r ∧ i.fields = f ∧ decodeWord (encodeFields r f) = some i)

/-- Every instruction, laid out in bytes high byte first and followed by any bytes, decodes to itself and leaves those
bytes (R56, R80, R88). -/
def Obligations.DecodeBytesOfEncodeIsIdentity : Prop :=
  ∀ (i : Instr) (rest : List Byte), decodeBytes (encodeBytes i ++ rest) = some (i, rest)

/-- R84: no word matches two rows of the catalog; a word decodes to nothing exactly when it matches no row; and what a
word decodes to is an instruction of the row it matches. -/
def Obligations.CatalogMatchesAtMostOneRow : Prop :=
  ∀ op : Word,
    (∀ r r' : Op, r.matches op = true → r'.matches op = true → r = r') ∧
    (decodeWord op = none ↔ ∀ r : Op, r.matches op = false) ∧
    (∀ i, decodeWord op = some i → i.op.matches op = true)

/-- The words that are no instruction are exactly those of the six categories of R96. -/
def Obligations.IllegalWordsAreTheListedOnes : Prop :=
  ∀ op : Word, decodeWord op = none ↔
    (op.toNat / 4096 = 0x0 ∧ op.toNat ≠ 0x00E0 ∧ op.toNat ≠ 0x00EE) ∨
    (op.toNat / 4096 = 0x5 ∧ op.toNat % 16 ≠ 0) ∨
    (op.toNat / 4096 = 0x8 ∧ op.toNat % 16 ∈ [0x8, 0x9, 0xA, 0xB, 0xC, 0xD, 0xF]) ∨
    (op.toNat / 4096 = 0x9 ∧ op.toNat % 16 ≠ 0) ∨
    (op.toNat / 4096 = 0xE ∧ op.toNat % 256 ∉ [0x9E, 0xA1]) ∨
    (op.toNat / 4096 = 0xF ∧ op.toNat % 256 ∉ [0x07, 0x0A, 0x15, 0x18, 0x1E, 0x29, 0x33, 0x55, 0x65])

/-- Words written out from the opcode map, one or more of every family, decode to the instructions they stand for
(R85). -/
def Obligations.SampleWordsDecode : Prop :=
  decodeWord 0x00E0 = some .cls ∧ decodeWord 0x00EE = some .ret ∧ decodeWord 0x2ABC = some (.call 0xABC) ∧
  decodeWord 0x3A42 = some (.seImm 0xA 0x42) ∧ decodeWord 0x8AB4 = some (.addReg 0xA 0xB) ∧
  decodeWord 0x8126 = some (.shr 1 2) ∧ decodeWord 0xD123 = some (.drw 1 2 3) ∧
  decodeWord 0xF118 = some (.ldStVx 1) ∧ decodeWord 0xE1A1 = some (.sknp 1) ∧
  decodeWord 0xF165 = some (.loadRegs 1) ∧ decodeWord 0xC0FF = some (.rnd 0 0xFF)

/-! ## The Step -/

/-- The fetch is big-endian, of two bytes, and never wraps (R56). -/
def Obligations.FetchIsBigEndian : Prop :=
  ∀ (a : Nat) (s : State),
    (a + 1 < 4096 → ∃ w, memReadWord a s = .done w ∧
      w.toNat = (s.mem.get a).toNat * 256 + (s.mem.get (a + 1)).toNat) ∧
    (a = 4095 → memReadWord a s = .raise .outOfRange (some 4096)) ∧
    (4096 ≤ a → memReadWord a s = .raise .outOfRange (some a))

/-- A step inside a tick whose fetched word decodes to `i` is `exec i`, and after what completes the Oscillator's part
(R86, R87, R227): nothing if the Step faulted, else one Step fewer is left, or the tick ends. -/
def Obligations.StepRunsTheDecodedInstruction : Prop :=
  ∀ (s : State) (op : Word) (i : Instr), inTick s → fetches s op → decodeWord op = some i →
    step s = match exec i s with
      | .next t => .next (finishStep t)
      | .fault f => .fault f
      | .refused r => .refused r

/-- After an instruction that completes and is not the last of its batch, exactly one Step fewer is left, and nothing
else is added to what the instruction did (R227). -/
def Obligations.BatchGoesOnStepByStep : Prop :=
  ∀ (s t : State) (op : Word) (i : Instr) (k : Nat), s.osc.stepsLeft = k + 2 → fetches s op →
    decodeWord op = some i → exec i s = .next t → t.osc = s.osc →
    step s = .next { t with osc := { s.osc with stepsLeft := k + 1 } }

/-- A fetch that touches an address of 4096 or more halts the machine with OutOfRange, no opcode recorded, and changes
nothing else (R56, R200, R201, R205). -/
def Obligations.FetchOutOfRangeHalts : Prop :=
  ∀ s : State, inTick s → 0xFFF ≤ s.cpu.pc.toNat →
    step s = .next (haltedState s
      ⟨.outOfRange, none, s.cpu.pc, some (if s.cpu.pc = 0xFFF then 0x1000 else s.cpu.pc.toNat)⟩)

/-- A fetched word that is no instruction halts the machine with UnknownOpcode and the word recorded, and changes
nothing else (R202). -/
def Obligations.UnknownOpcodeHalts : Prop :=
  ∀ (s : State) (op : Word), inTick s → fetches s op → decodeWord op = none →
    step s = .next (haltedState s ⟨.unknownOpcode, some op, s.cpu.pc, none⟩)

/-- Faults are precise (R204), in whatever phase they arise: a Step of a tick that ends Halted leaves the state in which
it began with only the halt sequence done (R205), the fault at the address it began at, with the word it fetched, or
with none when the fetch itself faulted (R31). -/
def Obligations.FaultingStepCommitsNothing : Prop :=
  ∀ s t : State, inTick s → s.osc.runState ≠ .halted → step s = .next t → t.osc.runState = .halted →
    ∃ d : FaultRecord, t = haltedState s d ∧ d.pc = s.cpu.pc ∧ (∀ op, fetches s op → d.opcode = some op) ∧
      (0xFFF ≤ s.cpu.pc.toNat → d.opcode = none)

/-- Only `CALL`, `RET`, `DRW`, `LD B`, `LD [I]` and `LD Vx,[I]` can fault: every other instruction completes in every
state and leaves the Oscillator alone (R200). -/
def Obligations.OnlySixInstructionsCanFault : Prop :=
  ∀ (i : Instr) (s : State), i.op ∉ [Op.call, .ret, .drw, .ldB, .storeRegs, .loadRegs] →
    ∃ t, exec i s = .next t ∧ t.osc = s.osc

/-- The table of R38: which instruction can write which piece of state, whatever the state; and no instruction writes
the configuration, the stored program or the pending inputs. -/
def Obligations.InstructionsWriteOnlyTheirState : Prop :=
  ∀ (i : Instr) (s t : State), exec i s = .next t →
    (t.cpu.v ≠ s.cpu.v → i.op ∈ [Op.ldImm, .addImm, .ldReg, .orReg, .andReg, .xorReg, .addReg, .subReg, .shr,
      .subnReg, .shl, .rnd, .drw, .ldVxDt, .ldVxK, .loadRegs]) ∧
    (t.cpu.i ≠ s.cpu.i → i.op ∈ [Op.ldI, .addI, .ldF] ∨
      (i.op ∈ [Op.storeRegs, .loadRegs] ∧ s.cfg.modifyI = true)) ∧
    (t.cpu.sp ≠ s.cpu.sp → i.op ∈ [Op.call, .ret]) ∧
    (t.cpu.stack ≠ s.cpu.stack → i.op = Op.call) ∧
    (t.cpu.dt ≠ s.cpu.dt → i.op = Op.ldDtVx) ∧
    (t.cpu.st ≠ s.cpu.st ∨ t.buzzing ≠ s.buzzing → i.op = Op.ldStVx) ∧
    ((∃ a, t.mem.get a ≠ s.mem.get a) → i.op ∈ [Op.ldB, .storeRegs]) ∧
    (t.fb ≠ s.fb → i.op ∈ [Op.cls, .drw]) ∧
    (t.env.keySamples ≠ s.env.keySamples → i.op ∈ [Op.skp, .sknp, .ldVxK]) ∧
    (t.env.randCount ≠ s.env.randCount → i.op = Op.rnd) ∧
    t.cfg = s.cfg ∧ t.program = s.program ∧ t.env.inputs = s.env.inputs

/-! ## Data operations -/

/-- The loads of a register and the three bitwise operations write `V[x]` and nothing else; VF only if `x = 15`
(R111, R113, R114, R115, R116). -/
def Obligations.MovesAndBitwiseWriteVx : Prop :=
  ∀ (x y : RegIx) (kk : Byte) (s : State),
    writesOnly (.ldImm x kk) s x kk ∧
    writesOnly (.ldReg x y) s x (s.cpu.v.get y) ∧
    writesOnly (.orReg x y) s x (s.cpu.v.get x ||| s.cpu.v.get y) ∧
    writesOnly (.andReg x y) s x (s.cpu.v.get x &&& s.cpu.v.get y) ∧
    writesOnly (.xorReg x y) s x (s.cpu.v.get x ^^^ s.cpu.v.get y)

/-- `ADD Vx, kk` adds modulo 256 and writes no flag (R112). -/
def Obligations.AddImmediateWrapsWithoutFlag : Prop :=
  ∀ (x : RegIx) (kk : Byte) (s : State),
    ∃ v, exec (.addImm x kk) s = .next (withRegs s v) ∧
      ∀ k, (v.get k).toNat =
        if k = x then ((s.cpu.v.get x).toNat + kk.toNat) % 256 else (s.cpu.v.get k).toNat

/-- `ADD Vx, Vy` adds modulo 256 and VF is the carry, written last (R117). -/
def Obligations.AddRegistersCarriesIntoVF : Prop :=
  ∀ (x y : RegIx) (s : State),
    writesResultAndFlag (.addReg x y) s x
      (((s.cpu.v.get x).toNat + (s.cpu.v.get y).toNat) % 256)
      (if (s.cpu.v.get x).toNat + (s.cpu.v.get y).toNat > 255 then 1 else 0)

/-- `SUB` and `SUBN` subtract modulo 256 and VF is 1 for no borrow, written last (R118, R120). -/
def Obligations.SubtractionsFlagNoBorrow : Prop :=
  ∀ (x y : RegIx) (s : State),
    writesResultAndFlag (.subReg x y) s x
      ((256 + (s.cpu.v.get x).toNat - (s.cpu.v.get y).toNat) % 256)
      (if (s.cpu.v.get x).toNat ≥ (s.cpu.v.get y).toNat then 1 else 0) ∧
    writesResultAndFlag (.subnReg x y) s x
      ((256 + (s.cpu.v.get y).toNat - (s.cpu.v.get x).toNat) % 256)
      (if (s.cpu.v.get y).toNat ≥ (s.cpu.v.get x).toNat then 1 else 0)

/-- `SHR` and `SHL` shift `V[x]` by one, VF is the bit shifted out, and the `y` field has no effect (R119, R121). -/
def Obligations.ShiftsPutTheLostBitInVF : Prop :=
  ∀ (x y : RegIx) (s : State),
    writesResultAndFlag (.shr x y) s x ((s.cpu.v.get x).toNat / 2) ((s.cpu.v.get x).toNat % 2) ∧
    writesResultAndFlag (.shl x y) s x ((s.cpu.v.get x).toNat * 2 % 256) ((s.cpu.v.get x).toNat / 128)

/-- `LD I,nnn`, `ADD I,Vx` and `LD F,Vx` write I and nothing else: the address, the sum modulo 65536 without a flag,
the digit's font address (R122, R191, R192). -/
def Obligations.IndexInstructionsWriteI : Prop :=
  ∀ (x : RegIx) (nnn : Addr) (s : State),
    (∃ w, exec (.ldI nnn) s = .next (withIndex s w) ∧ w.toNat = nnn.toNat) ∧
    (∃ w, exec (.addI x) s = .next (withIndex s w) ∧
      w.toNat = (s.cpu.i.toNat + (s.cpu.v.get x).toNat) % 65536) ∧
    (∃ w, exec (.ldF x) s = .next (withIndex s w) ∧ w.toNat = s.cfg.fontBase.toNat + 5 * ((s.cpu.v.get x).toNat % 16))

/-- `LD [I], Vx`: V0 to Vx go to I upward with one range notification, I moves by `x + 1` if MODIFY_I, nothing else
changes; where the span runs out of Memory it faults and stores nothing (R123, R126). -/
def Obligations.BlockStoreWritesV0ToVx : Prop :=
  ∀ (x : RegIx) (s : State),
    (s.cpu.i.toNat + x.val < 4096 →
      ∃ t, exec (.storeRegs x) s = .next t ∧
        (∀ k : RegIx, k ≤ x → t.mem.get (s.cpu.i.toNat + k.val) = s.cpu.v.get k) ∧
        (∀ a, a < s.cpu.i.toNat ∨ s.cpu.i.toNat + x.val < a → t.mem.get a = s.mem.get a) ∧
        t.cpu.i.toNat = (if s.cfg.modifyI then s.cpu.i.toNat + x.val + 1 else s.cpu.i.toNat) ∧
        t = { s with
              mem := t.mem
              cpu := { s.cpu with i := t.cpu.i, pc := s.cpu.pc + 2 }
              outputs := s.outputs ++ [.memoryRangeModified s.cpu.i.toNat (s.cpu.i.toNat + x.val)] }) ∧
    (4096 ≤ s.cpu.i.toNat + x.val →
      exec (.storeRegs x) s = .next (haltedState s
        ⟨.outOfRange, some (BitVec.ofNat 16 (0xF055 + 0x100 * x.val)), s.cpu.pc, some (max s.cpu.i.toNat 4096)⟩))

/-- `LD Vx, [I]`: V0 to Vx are read from I upward, I moves by `x + 1` if MODIFY_I, nothing else changes and nothing is
notified; where the span runs out of Memory it faults and loads nothing (R124, R126). -/
def Obligations.BlockLoadReadsV0ToVx : Prop :=
  ∀ (x : RegIx) (s : State),
    (s.cpu.i.toNat + x.val < 4096 →
      ∃ (v : Vector Byte 16) (w : Word),
        exec (.loadRegs x) s = .next { s with cpu := { s.cpu with v := v, i := w, pc := s.cpu.pc + 2 } } ∧
        (∀ k : RegIx, v.get k = if k ≤ x then s.mem.get (s.cpu.i.toNat + k.val) else s.cpu.v.get k) ∧
        w.toNat = (if s.cfg.modifyI then s.cpu.i.toNat + x.val + 1 else s.cpu.i.toNat)) ∧
    (4096 ≤ s.cpu.i.toNat + x.val →
      exec (.loadRegs x) s = .next (haltedState s
        ⟨.outOfRange, some (BitVec.ofNat 16 (0xF065 + 0x100 * x.val)), s.cpu.pc, some (max s.cpu.i.toNat 4096)⟩))

/-! ## Control operations -/

/-- `JP nnn` and `JP V0,nnn` set PC, not reduced to 12 bits, and change nothing else (R141, R144). -/
def Obligations.JumpsSetPC : Prop :=
  ∀ (nnn : Addr) (s : State),
    (∃ w, exec (.jp nnn) s = .next (withPc s w) ∧ w.toNat = nnn.toNat) ∧
    (∃ w, exec (.jpV0 nnn) s = .next (withPc s w) ∧ w.toNat = nnn.toNat + (s.cpu.v.get 0).toNat)

/-- `CALL nnn` pushes the address after itself and jumps; with 16 entries in use it faults and changes nothing
(R142). -/
def Obligations.CallPushesTheReturnAddress : Prop :=
  ∀ (nnn : Addr) (s : State),
    (∀ k : Fin 16, s.cpu.sp.toNat = k.val →
      ∃ (stack : Vector Word 16) (w : Word),
        exec (.call nnn) s = .next { s with cpu := { s.cpu with stack := stack, sp := s.cpu.sp + 1, pc := w } } ∧
        w.toNat = nnn.toNat ∧
        ∀ j, stack.get j = if j = k then s.cpu.pc + 2 else s.cpu.stack.get j) ∧
    (s.cpu.sp = 16 →
      exec (.call nnn) s = .next (haltedState s
        ⟨.stackOverflow, some (BitVec.ofNat 16 (0x2000 + nnn.toNat)), s.cpu.pc, none⟩))

/-- `RET` pops PC and keeps the slot's value; with no entry in use it faults and changes nothing (R143). -/
def Obligations.ReturnPopsThePC : Prop :=
  ∀ s : State,
    (∀ k : Fin 16, s.cpu.sp.toNat = k.val + 1 →
      exec .ret s = .next { s with cpu := { s.cpu with sp := s.cpu.sp - 1, pc := s.cpu.stack.get k } }) ∧
    (s.cpu.sp = 0 →
      exec .ret s = .next (haltedState s ⟨.stackUnderflow, some 0x00EE, s.cpu.pc, none⟩))

/-- "push then pop returns the same address": a `RET` executed in any later state with the stack and SP that a `CALL`
left resumes right after the `CALL`, with SP as it was (R143). -/
def Obligations.ReturnResumesAfterTheCall : Prop :=
  ∀ (nnn : Addr) (s t u : State), s.cpu.sp.toNat < 16 → exec (.call nnn) s = .next t →
    u.cpu.stack = t.cpu.stack → u.cpu.sp = t.cpu.sp →
    ∃ w, exec .ret u = .next w ∧ w.cpu.pc = s.cpu.pc + 2 ∧ w.cpu.sp = s.cpu.sp ∧ w.cpu.stack = t.cpu.stack

/-- The four skips step over one instruction exactly when their comparison holds, and change nothing but PC
(R145, R146, R147, R148). -/
def Obligations.SkipsCompareRegisters : Prop :=
  ∀ (x y : RegIx) (kk : Byte) (s : State),
    exec (.seImm x kk) s =
      .next (withPc s (if (s.cpu.v.get x).toNat = kk.toNat then s.cpu.pc + 4 else s.cpu.pc + 2)) ∧
    exec (.sneImm x kk) s =
      .next (withPc s (if (s.cpu.v.get x).toNat ≠ kk.toNat then s.cpu.pc + 4 else s.cpu.pc + 2)) ∧
    exec (.seReg x y) s =
      .next (withPc s (if (s.cpu.v.get x).toNat = (s.cpu.v.get y).toNat then s.cpu.pc + 4 else s.cpu.pc + 2)) ∧
    exec (.sneReg x y) s =
      .next (withPc s (if (s.cpu.v.get x).toNat ≠ (s.cpu.v.get y).toNat then s.cpu.pc + 4 else s.cpu.pc + 2))

/-! ## Display operations -/

/-- `CLS` turns every pixel off by one Clear and changes nothing else but PC (R161). -/
def Obligations.ClearTurnsEveryPixelOff : Prop :=
  ∀ s : State, ∃ fb : Display,
    exec .cls s = .next { s with
      fb := fb
      cpu := { s.cpu with pc := s.cpu.pc + 2 }
      outputs := s.outputs ++ [.displayClear] } ∧
    ∀ px py, Display.get fb px py = false

/-- `DRW Vx, Vy, n`: exactly the pixels under a 1 bit of the sprite are inverted, each by one SetPixel, in the order of
the rows and in a row of the columns; VF is 1 when one of them was on, else 0; nothing else changes. A sprite that runs
out of Memory faults and draws nothing (R162). -/
def Obligations.DrawInvertsTheCoveredPixels : Prop :=
  ∀ (x y : RegIx) (n : Nibble) (s : State) (x0 y0 : Nat),
    x0 = (s.cpu.v.get x).toNat % 64 → y0 = (s.cpu.v.get y).toNat % 32 →
    (n = 0 ∨ s.cpu.i.toNat + n.toNat ≤ 4096 →
      ∃ (v : Vector Byte 16) (fb : Display) (ps : List (Fin 64 × Fin 32)),
        exec (.drw x y n) s = .next { s with
          fb := fb
          cpu := { s.cpu with v := v, pc := s.cpu.pc + 2 }
          outputs := s.outputs ++ ps.map fun p => .displaySetPixel p.1 p.2 (!Display.get s.fb p.1 p.2) } ∧
        (∀ px py, (px, py) ∈ ps ↔ covers s x0 y0 n.toNat s.cpu.i.toNat px py) ∧
        ps.Pairwise (fun p q => p.2 < q.2 ∨ p.2 = q.2 ∧ p.1 < q.1) ∧
        (∀ px py, covers s x0 y0 n.toNat s.cpu.i.toNat px py →
          Display.get fb px py = !Display.get s.fb px py) ∧
        (∀ px py, ¬ covers s x0 y0 n.toNat s.cpu.i.toNat px py → Display.get fb px py = Display.get s.fb px py) ∧
        ((∃ px py, covers s x0 y0 n.toNat s.cpu.i.toNat px py ∧ Display.get s.fb px py = true) → v.get 15 = 1) ∧
        ((¬ ∃ px py, covers s x0 y0 n.toNat s.cpu.i.toNat px py ∧ Display.get s.fb px py = true) → v.get 15 = 0) ∧
        (∀ k, k ≠ 15 → v.get k = s.cpu.v.get k)) ∧
    (n ≠ 0 ∧ 4096 < s.cpu.i.toNat + n.toNat →
      exec (.drw x y n) s = .next (haltedState s
        ⟨.outOfRange, some (BitVec.ofNat 16 (0xD000 + 0x100 * x.val + 0x10 * y.val + n.toNat)), s.cpu.pc,
          some (max s.cpu.i.toNat 4096)⟩))

/-- R163: the same `DRW` twice in a row, neither coordinate in VF, restores every pixel; VF is then 1 exactly when some
pixel under the sprite was off before the first, as it was 1 after the first exactly when some such pixel was on. -/
def Obligations.DrawTwiceRestoresTheDisplay : Prop :=
  ∀ (x y : RegIx) (n : Nibble) (s t : State) (x0 y0 : Nat), x ≠ 15 → y ≠ 15 →
    n = 0 ∨ s.cpu.i.toNat + n.toNat ≤ 4096 →
    x0 = (s.cpu.v.get x).toNat % 64 → y0 = (s.cpu.v.get y).toNat % 32 →
    exec (.drw x y n) s = .next t →
    ∃ u, exec (.drw x y n) t = .next u ∧
      (∀ px py, Display.get u.fb px py = Display.get s.fb px py) ∧
      (t.cpu.v.get 15 = 1 ↔
        ∃ px py, covers s x0 y0 n.toNat s.cpu.i.toNat px py ∧ Display.get s.fb px py = true) ∧
      (u.cpu.v.get 15 = 1 ↔
        ∃ px py, covers s x0 y0 n.toNat s.cpu.i.toNat px py ∧ Display.get s.fb px py = false)

/-! ## Timer operations -/

/-- `LD Vx,DT` copies DT to `V[x]` and keeps it; `LD DT,Vx` copies `V[x]` to DT and signals nothing (R171, R172). -/
def Obligations.DelayTimerIsReadAndWritten : Prop :=
  ∀ (x : RegIx) (s : State),
    writesOnly (.ldVxDt x) s x s.cpu.dt ∧
    exec (.ldDtVx x) s = .next { s with cpu := { s.cpu with dt := s.cpu.v.get x, pc := s.cpu.pc + 2 } }

/-- `LD ST,Vx` writes ST and calls Play on a change from 0 to non-zero, Stop on a change from non-zero to 0, and nothing
otherwise (R173). -/
def Obligations.SoundTimerWriteDrivesTheBuzzer : Prop :=
  ∀ (x : RegIx) (s : State),
    ∃ (b : Bool) (calls : List Output),
      exec (.ldStVx x) s = .next { s with
        cpu := { s.cpu with st := s.cpu.v.get x, pc := s.cpu.pc + 2 }
        buzzing := b
        outputs := s.outputs ++ calls } ∧
      (s.cpu.st = 0 ∧ s.cpu.v.get x ≠ 0 → b = true ∧ calls = [.buzzerPlay]) ∧
      (s.cpu.st ≠ 0 ∧ s.cpu.v.get x = 0 → b = false ∧ calls = [.buzzerStop]) ∧
      ((s.cpu.st = 0 ↔ s.cpu.v.get x = 0) → b = s.buzzing ∧ calls = [])

/-! ## Input operations -/

/-- `SKP` and `SKNP` sample `keys` once and skip exactly when the key numbered by the low nibble of `V[x]` is down, or
up; nothing else changes (R181, R182). The sampled level is the environment's or a free value (log entry 7): the
statement holds for every level. -/
def Obligations.KeySkipsTestOneKey : Prop :=
  ∀ (x : RegIx) (s : State) (keys : Word) (later : List Word), samplesKeys s keys later →
    (∃ w, exec (.skp x) s = .next { withPc s w with
        env := { s.env with keyLevels := later, keySamples := s.env.keySamples + 1 } } ∧
      w = if keys.getLsbD ((s.cpu.v.get x).toNat % 16) then s.cpu.pc + 4 else s.cpu.pc + 2) ∧
    (∃ w, exec (.sknp x) s = .next { withPc s w with
        env := { s.env with keyLevels := later, keySamples := s.env.keySamples + 1 } } ∧
      w = if keys.getLsbD ((s.cpu.v.get x).toNat % 16) then s.cpu.pc + 2 else s.cpu.pc + 4)

/-- `LD Vx,K` samples `keys` once: with no key down PC stays at the instruction itself and no register changes; else
`V[x]` is the least key down, and nothing else changes (R183). The level is the environment's or a free value (log
entry 7). -/
def Obligations.WaitForKeyTakesTheLowestKey : Prop :=
  ∀ (x : RegIx) (s : State) (keys : Word) (later : List Word), samplesKeys s keys later →
    (keys = 0 →
      exec (.ldVxK x) s = .next { s with
        env := { s.env with keyLevels := later, keySamples := s.env.keySamples + 1 } }) ∧
    (∀ k : Nat, k < 16 → keys.getLsbD k = true → (∀ j, j < k → keys.getLsbD j = false) →
      ∃ v, exec (.ldVxK x) s = .next { withRegs s v with
          env := { s.env with keyLevels := later, keySamples := s.env.keySamples + 1 } } ∧
        ∀ r, (v.get r).toNat = if r = x then k else (s.cpu.v.get r).toNat)

/-! ## Miscellaneous operations -/

/-- `RND Vx, kk` draws `rand` once and `V[x]` is the drawn byte masked with `kk`; nothing else changes (R193). The drawn
byte is the environment's or a free value (log entry 8): the statement holds for every byte. -/
def Obligations.RandomByteIsMasked : Prop :=
  ∀ (x : RegIx) (kk : Byte) (s : State) (b : Byte) (later : List Byte), drawsRand s b later →
    ∃ v, exec (.rnd x kk) s = .next { withRegs s v with
        env := { s.env with randDraws := later, randCount := s.env.randCount + 1 } } ∧
      ∀ k, v.get k = if k = x then b &&& kk else s.cpu.v.get k

/-- `LD B,Vx` stores the hundreds, tens and ones digit of `V[x]` at I, I+1, I+2, notifies each byte that changes, in that
order, and changes nothing else; where the span runs out of Memory it faults and stores nothing (R194). -/
def Obligations.BcdStoresThreeDigits : Prop :=
  ∀ (x : RegIx) (s : State) (i v : Nat), i = s.cpu.i.toNat → v = (s.cpu.v.get x).toNat →
    (i + 2 < 4096 →
      ∃ t, exec (.ldB x) s = .next t ∧
        (t.mem.get i).toNat = v / 100 ∧
        (t.mem.get (i + 1)).toNat = v / 10 % 10 ∧
        (t.mem.get (i + 2)).toNat = v % 10 ∧
        (∀ a, a < i ∨ i + 2 < a → t.mem.get a = s.mem.get a) ∧
        t = { s with
              mem := t.mem
              cpu := { s.cpu with pc := s.cpu.pc + 2 }
              outputs := s.outputs ++ byteEvent i (s.mem.get i) (t.mem.get i) ++
                byteEvent (i + 1) (s.mem.get (i + 1)) (t.mem.get (i + 1)) ++
                byteEvent (i + 2) (s.mem.get (i + 2)) (t.mem.get (i + 2)) }) ∧
    (4096 ≤ i + 2 →
      exec (.ldB x) s = .next (haltedState s
        ⟨.outOfRange, some (BitVec.ofNat 16 (0xF033 + 0x100 * x.val)), s.cpu.pc, some (max i 4096)⟩))

/-! ## Memory -/

/-- R52, R53, R63 (c): a byte written inside Memory is read back, every other byte reads as before, one notification is
raised exactly if the byte changes; outside Memory reading and writing raise OutOfRange. -/
def Obligations.ByteWriteThenRead : Prop :=
  ∀ (a : Nat) (v : Byte) (s : State),
    (a < 4096 →
      ∃ t, memWrite a v s = .done t ∧ memRead a t = .done v ∧
        (∀ b, b ≠ a → memRead b t = memRead b s) ∧
        t = { s with mem := t.mem, outputs := s.outputs ++ byteEvent a (s.mem.get a) v }) ∧
    (4096 ≤ a → memRead a s = .raise .outOfRange (some a) ∧ memWrite a v s = .raise .outOfRange (some a))

/-- R54: a range write that fits writes exactly its span and raises one range notification, none for no bytes; one that
does not fit raises OutOfRange at the lowest address outside. -/
def Obligations.RangeWriteIsAllOrNothing : Prop :=
  ∀ (start : Nat) (bytes : List Byte) (s : State),
    (bytes = [] ∨ start + bytes.length ≤ 4096 →
      ∃ t, memWriteRange start bytes s = .done t ∧
        (∀ k, k < bytes.length → t.mem.get (start + k) = bytes.getD k 0) ∧
        (∀ a, a < start ∨ start + bytes.length ≤ a → t.mem.get a = s.mem.get a) ∧
        t = { s with mem := t.mem, outputs := s.outputs ++ rangeEvent start bytes.length }) ∧
    (bytes ≠ [] ∧ 4096 < start + bytes.length →
      memWriteRange start bytes s = .raise .outOfRange (some (max start 4096)))

/-- Fetch coherence: when the instruction after a block store lies in the bytes it has just stored, the word it fetches
is the stored one (R66). -/
def Obligations.StoredWordIsFetchedNext : Prop :=
  ∀ (x k l : RegIx) (s t : State), s.cpu.i.toNat + x.val < 4096 → exec (.storeRegs x) s = .next t →
    l.val = k.val + 1 → l ≤ x → t.cpu.pc.toNat = s.cpu.i.toNat + k.val →
    fetches t (wordOfBytes (s.cpu.v.get k) (s.cpu.v.get l))

/-! ## The Oscillator -/

/-- One tick pulse (R224, R226): ignored while disarmed; only counted while not Running; a Monostable tick is due one
Step; an Astable tick is due `(acc + SPEED_HZ) div TICK_HZ` Steps, at least one, and keeps the remainder. -/
def Obligations.TickPulseStartsABatch : Prop :=
  ∀ (s : State) (rest : List Input), nextInput s .tick rest →
    (s.osc.tickArmed = false → step s = .next (inputTaken s rest)) ∧
    (s.osc.tickArmed = true → s.osc.runState ≠ .running →
      step s = .next { inputTaken s rest with osc := { s.osc with elapsedTicks := s.osc.elapsedTicks + 1 } }) ∧
    (s.osc.tickArmed = true → s.osc.runState = .running → s.cfg.mode = .monostable →
      step s = .next { inputTaken s rest with osc :=
        { s.osc with elapsedTicks := s.osc.elapsedTicks + 1, stepsLeft := 1 } }) ∧
    (s.osc.tickArmed = true → s.osc.runState = .running → s.cfg.mode = .astable → 0 < s.cfg.tickHz →
      ∃ n acc, step s = .next { inputTaken s rest with osc :=
          { s.osc with elapsedTicks := s.osc.elapsedTicks + 1, stepsLeft := n, acc := acc } } ∧
        acc < s.cfg.tickHz ∧
        (s.cfg.tickHz ≤ s.osc.acc + s.cfg.speedHz → s.osc.acc + s.cfg.speedHz = n * s.cfg.tickHz + acc) ∧
        (s.osc.acc + s.cfg.speedHz < s.cfg.tickHz → n = 1 ∧ acc = s.osc.acc + s.cfg.speedHz))

/-- "When `SPEED_HZ >= TICK_HZ`, any `TICK_HZ` consecutive ticks run exactly `SPEED_HZ` Steps in total (no drift)"
(R226), with `batchSize` as the tick uses it. -/
def Obligations.BatchesDoNotDrift : Prop :=
  ∀ (tickHz speedHz : Nat) (acc : Nat → Nat), 0 < tickHz → tickHz ≤ speedHz → acc 0 < tickHz →
    (∀ k, acc (k + 1) = (acc k + speedHz) % tickHz) →
    ((List.range tickHz).map fun k => batchSize (acc k + speedHz) tickHz).sum = speedHz

/-- R228: after the last Step of an Astable tick, if it completes, each timer that is not 0 goes down by one, and ST
reaching 0 stops the Buzzer; nothing else is added to what the instruction did. -/
def Obligations.AstableTickEndsWithDecay : Prop :=
  ∀ (s t : State) (op : Word) (i : Instr), s.osc.stepsLeft = 1 → s.cfg.mode = .astable → fetches s op →
    decodeWord op = some i → exec i s = .next t → t.osc = s.osc →
    ∃ (dt st : Byte),
      step s = .next { t with
        cpu := { t.cpu with dt := dt, st := st }
        osc := { s.osc with stepsLeft := 0 }
        buzzing := if t.cpu.st = 1 then false else t.buzzing
        outputs := t.outputs ++ if t.cpu.st = 1 then [.buzzerStop] else [] } ∧
      dt.toNat = t.cpu.dt.toNat - 1 ∧ st.toNat = t.cpu.st.toNat - 1

/-- R225: after the one Step of a Monostable tick, if it completes, the Oscillator is Stopped and disarmed and
CycleStepped is raised; the timers do not decay. -/
def Obligations.MonostableTickStopsAfterOneStep : Prop :=
  ∀ (s t : State) (op : Word) (i : Instr), s.osc.stepsLeft = 1 → s.cfg.mode = .monostable → fetches s op →
    decodeWord op = some i → exec i s = .next t → t.osc = s.osc →
    step s = .next { t with
      osc := { s.osc with runState := .stopped, tickArmed := false, stepsLeft := 0 }
      outputs := t.outputs ++ [.cycleStepped] }

/-- `Start()` and `Stop()` change the run state, the arming and the fault record as R221 and R222 say and nothing
else. -/
def Obligations.StartAndStopSetTheRunState : Prop :=
  ∀ (s : State) (rest : List Input),
    (nextInput s .start rest →
      step s = .next { inputTaken s rest with osc :=
        { s.osc with runState := .running, fault := none, tickArmed := true } }) ∧
    (nextInput s .stop rest → s.osc.runState = .running →
      step s = .next { inputTaken s rest with osc := { s.osc with runState := .stopped, tickArmed := false } }) ∧
    (nextInput s .stop rest → s.osc.runState ≠ .running →
      step s = .next { inputTaken s rest with osc := { s.osc with tickArmed := false } })

/-- `SetSpeed`, `SetMode`, `SetOptionFlag` write one configuration register and `GetOptionFlag` answers one, and each
changes nothing else (R223, R257). That the answer is put out is the model's form (log entry 9). -/
def Obligations.SettingsWriteOneRegister : Prop :=
  ∀ (s : State) (rest : List Input) (hz : Nat) (m : Mode) (b : Bool),
    (nextInput s (.setSpeed hz) rest →
      step s = .next { inputTaken s rest with cfg := { s.cfg with speedHz := hz } }) ∧
    (nextInput s (.setMode m) rest →
      step s = .next { inputTaken s rest with cfg := { s.cfg with mode := m } }) ∧
    (nextInput s (.setOptionFlag .clearScreenOnReset b) rest →
      step s = .next { inputTaken s rest with cfg := { s.cfg with clearScreenOnReset := b } }) ∧
    (nextInput s (.setOptionFlag .modifyIOnFx55AndFx65 b) rest →
      step s = .next { inputTaken s rest with cfg := { s.cfg with modifyI := b } }) ∧
    (nextInput s (.getOptionFlag .clearScreenOnReset) rest →
      step s = .next { inputTaken s rest with
        outputs := s.outputs ++ [.optionFlag .clearScreenOnReset s.cfg.clearScreenOnReset] }) ∧
    (nextInput s (.getOptionFlag .modifyIOnFx55AndFx65) rest →
      step s = .next { inputTaken s rest with
        outputs := s.outputs ++ [.optionFlag .modifyIOnFx55AndFx65 s.cfg.modifyI] })

/-- Halted is left only by `Start()`, `PowerCycle()` or `Restart()`; until then no Step runs and no timer decays: the
Processor, the display, the Buzzer and the fault record stay as they are, and Memory too but for `LoadProgram`
(R230, R274). -/
def Obligations.HaltedIsLeftOnlyByStartOrReset : Prop :=
  ∀ s t : State, s.osc.runState = .halted → s.osc.stepsLeft = 0 → step s = .next t →
    (∀ rest, s.env.inputs ≠ .start :: rest) → (∀ rest, s.env.inputs ≠ .powerCycle :: rest) →
    (∀ rest, s.env.inputs ≠ .restart :: rest) →
    t.osc.runState = .halted ∧ t.osc.fault = s.osc.fault ∧ t.osc.stepsLeft = 0 ∧ t.cpu = s.cpu ∧ t.fb = s.fb ∧
      t.buzzing = s.buzzing ∧
      ((∀ image rest, s.env.inputs ≠ .loadProgram image :: rest) → ∀ a, t.mem.get a = s.mem.get a)

/-! ## Resets and loading -/

/-- The cold reset (R252, R256, R260, R261; 10_state.md R37): all of Memory 0 but the font and the program, the Processor
and the Oscillator at their reset values, the display cleared exactly if CLEAR_SCREEN_ON_RESET, the configuration and
the stored program unchanged, and the outputs in the order of the sequence. -/
def Obligations.PowerCycleResetsEverything : Prop :=
  ∀ (s : State) (rest : List Input) (image : List Byte), nextInput s .powerCycle rest →
    image = s.program.getD [] → s.cfg.fontBase.toNat + s.cfg.fontImage.length ≤ 0x200 → image.length ≤ 3584 →
    ∃ t, step s = .next t ∧
      (∀ a, t.mem.get a =
        if 0x200 ≤ a then image.getD (a - 0x200) 0
        else if s.cfg.fontBase.toNat ≤ a then s.cfg.fontImage.getD (a - s.cfg.fontBase.toNat) 0
        else 0) ∧
      (∀ k, t.cpu.v.get k = 0) ∧ t.cpu.i = 0 ∧ t.cpu.pc = 0x200 ∧ t.cpu.sp = 0 ∧
      (∀ k, t.cpu.stack.get k = 0) ∧ t.cpu.dt = 0 ∧ t.cpu.st = 0 ∧
      t.osc = ⟨.stopped, false, 0, 0, none, 0⟩ ∧
      (∀ px py, Display.get t.fb px py = if s.cfg.clearScreenOnReset then false else Display.get s.fb px py) ∧
      t.buzzing = (if s.cpu.st = 0 then s.buzzing else false) ∧
      t.cfg = s.cfg ∧ t.program = s.program ∧ t.env = { s.env with inputs := rest } ∧
      t.outputs = s.outputs ++ rangeEvent 0 4096 ++ rangeEvent s.cfg.fontBase.toNat s.cfg.fontImage.length ++
        (if s.cfg.clearScreenOnReset then [.displayClear] else []) ++ rangeEvent 0x200 image.length ++
        (if s.cpu.st = 0 then [] else [.buzzerStop])

/-- The warm reset (R253, R256, R260, R261): Memory outside the program's span keeps its contents, the program is written
again, and the rest is as in the cold reset. -/
def Obligations.RestartPreservesOtherMemory : Prop :=
  ∀ (s : State) (rest : List Input) (image : List Byte), nextInput s .restart rest →
    image = s.program.getD [] → image.length ≤ 3584 →
    ∃ t, step s = .next t ∧
      (∀ k, k < image.length → t.mem.get (0x200 + k) = image.getD k 0) ∧
      (∀ a, a < 0x200 ∨ 0x200 + image.length ≤ a → t.mem.get a = s.mem.get a) ∧
      (∀ k, t.cpu.v.get k = 0) ∧ t.cpu.i = 0 ∧ t.cpu.pc = 0x200 ∧ t.cpu.sp = 0 ∧
      (∀ k, t.cpu.stack.get k = 0) ∧ t.cpu.dt = 0 ∧ t.cpu.st = 0 ∧
      t.osc = ⟨.stopped, false, 0, 0, none, 0⟩ ∧
      (∀ px py, Display.get t.fb px py = if s.cfg.clearScreenOnReset then false else Display.get s.fb px py) ∧
      t.buzzing = (if s.cpu.st = 0 then s.buzzing else false) ∧
      t.cfg = s.cfg ∧ t.program = s.program ∧ t.env = { s.env with inputs := rest } ∧
      t.outputs = s.outputs ++ (if s.cfg.clearScreenOnReset then [.displayClear] else []) ++
        rangeEvent 0x200 image.length ++ (if s.cpu.st = 0 then [] else [.buzzerStop])

/-- `LoadProgram` (R254, R255): an image of at most 3584 bytes becomes the stored program and is written from 0x200; a
longer one is reported with its length and changes nothing. That the report to the caller stands on the output list is
the model's form (log entry 9). -/
def Obligations.LoadProgramStoresOrRejects : Prop :=
  ∀ (s : State) (rest : List Input) (image : List Byte), nextInput s (.loadProgram image) rest →
    (image.length ≤ 3584 →
      ∃ t, step s = .next t ∧
        (∀ k, k < image.length → t.mem.get (0x200 + k) = image.getD k 0) ∧
        (∀ a, a < 0x200 ∨ 0x200 + image.length ≤ a → t.mem.get a = s.mem.get a) ∧
        t = { inputTaken s rest with
              mem := t.mem
              program := some image
              outputs := s.outputs ++ rangeEvent 0x200 image.length }) ∧
    (3584 < image.length →
      step s = .next { inputTaken s rest with outputs := s.outputs ++ [.programTooLarge image.length] })

/-- Construction (R251; 10_state.md R37): every register, stack entry and timer 0 but PC, the display blank, the
Oscillator Stopped and disarmed, no program, no output, the mode Astable, and Memory 0 but for the font image. That the
list of cells holding Memory is in canonical form is the model's own clause (log entry 1). -/
def Obligations.ConstructionLeavesTheResetState : Prop :=
  ∀ c : Configuration, c.fontBase.toNat + c.fontImage.length ≤ 0x200 →
    (∀ k, (construct c).cpu.v.get k = 0) ∧ (construct c).cpu.i = 0 ∧ (construct c).cpu.pc = 0x200 ∧
    (construct c).cpu.sp = 0 ∧ (∀ k, (construct c).cpu.stack.get k = 0) ∧ (construct c).cpu.dt = 0 ∧
    (construct c).cpu.st = 0 ∧ (construct c).osc = ⟨.stopped, false, 0, 0, none, 0⟩ ∧
    (∀ px py, Display.get (construct c).fb px py = false) ∧ (construct c).buzzing = false ∧
    (construct c).program = none ∧ (construct c).outputs = [] ∧ (construct c).cfg = { c with mode := .astable } ∧
    (∀ a, (construct c).mem.get a =
      if c.fontBase.toNat ≤ a then c.fontImage.getD (a - c.fontBase.toNat) 0 else 0) ∧ (construct c).mem.wf

/-! ## Whole-machine invariants -/

/-- The state after reset meets the invariant. The strap values in it are the model's choice (log entries 2 and 3). -/
def Obligations.ResetMeetsTheInvariant : Prop := Inv State.reset

/-- Every step keeps the invariant: Memory in canonical form (log entry 1), SP at most 16, PC and the return addresses in their ranges,
the Buzzer in step with ST, `acc` below TICK_HZ, a fault recorded exactly while Halted, Steps due only while Running,
one at most in Monostable mode. -/
def Obligations.StepKeepsTheInvariant : Prop :=
  ∀ s t : State, Inv s → step s = .next t → Inv t

/-- From a state that meets the invariant a step always answers a next state: the model's own stops (log entry 10) are
never met, and every condition the spec calls a fault is a next state. -/
def Obligations.InvariantStatesNeverStop : Prop :=
  ∀ s : State, Inv s → ∃ t, step s = .next t

/-- Outputs are only ever appended: none is dropped, merged or reordered (R55, R229). -/
def Obligations.OutputsAreOnlyAppended : Prop :=
  ∀ s t : State, step s = .next t → ∃ later, t.outputs = s.outputs ++ later

/-- Outputs have no path back into the core (R12): a state with other outputs behind it takes the same step, and adds
the same outputs to them. -/
def Obligations.OutputsHaveNoWayBack : Prop :=
  ∀ (s t : State) (earlier : List Output), step s = .next t →
    step { s with outputs := earlier ++ s.outputs } = .next { t with outputs := earlier ++ t.outputs }
end

