-- ==== Sys2Proof/Laws/State.lean ====
section
/-! SUPPORT. One lemma per field per named update of State, true by unfolding, so that no later proof unfolds an
update: each named operation of Machine/Ops.lean that writes State, against every field. -/

namespace Sys2Proof.Machine

@[simp] theorem emit_cpu (o : Output) (s : State) : (emit o s).cpu = s.cpu := rfl
@[simp] theorem emit_mem (o : Output) (s : State) : (emit o s).mem = s.mem := rfl
@[simp] theorem emit_fb (o : Output) (s : State) : (emit o s).fb = s.fb := rfl
@[simp] theorem emit_buzzing (o : Output) (s : State) : (emit o s).buzzing = s.buzzing := rfl
@[simp] theorem emit_osc (o : Output) (s : State) : (emit o s).osc = s.osc := rfl
@[simp] theorem emit_cfg (o : Output) (s : State) : (emit o s).cfg = s.cfg := rfl
@[simp] theorem emit_program (o : Output) (s : State) : (emit o s).program = s.program := rfl
@[simp] theorem emit_env (o : Output) (s : State) : (emit o s).env = s.env := rfl
@[simp] theorem emit_outputs (o : Output) (s : State) : (emit o s).outputs = s.outputs ++ [o] := rfl

@[simp] theorem setReg_v (x : RegIx) (b : Byte) (s : State) : (setReg x b s).cpu.v = s.cpu.v.set x.val b x.isLt := rfl
@[simp] theorem setReg_i (x : RegIx) (b : Byte) (s : State) : (setReg x b s).cpu.i = s.cpu.i := rfl
@[simp] theorem setReg_pc (x : RegIx) (b : Byte) (s : State) : (setReg x b s).cpu.pc = s.cpu.pc := rfl
@[simp] theorem setReg_sp (x : RegIx) (b : Byte) (s : State) : (setReg x b s).cpu.sp = s.cpu.sp := rfl
@[simp] theorem setReg_stack (x : RegIx) (b : Byte) (s : State) : (setReg x b s).cpu.stack = s.cpu.stack := rfl
@[simp] theorem setReg_dt (x : RegIx) (b : Byte) (s : State) : (setReg x b s).cpu.dt = s.cpu.dt := rfl
@[simp] theorem setReg_st (x : RegIx) (b : Byte) (s : State) : (setReg x b s).cpu.st = s.cpu.st := rfl
@[simp] theorem setReg_mem (x : RegIx) (b : Byte) (s : State) : (setReg x b s).mem = s.mem := rfl
@[simp] theorem setReg_fb (x : RegIx) (b : Byte) (s : State) : (setReg x b s).fb = s.fb := rfl
@[simp] theorem setReg_buzzing (x : RegIx) (b : Byte) (s : State) : (setReg x b s).buzzing = s.buzzing := rfl
@[simp] theorem setReg_osc (x : RegIx) (b : Byte) (s : State) : (setReg x b s).osc = s.osc := rfl
@[simp] theorem setReg_cfg (x : RegIx) (b : Byte) (s : State) : (setReg x b s).cfg = s.cfg := rfl
@[simp] theorem setReg_program (x : RegIx) (b : Byte) (s : State) : (setReg x b s).program = s.program := rfl
@[simp] theorem setReg_env (x : RegIx) (b : Byte) (s : State) : (setReg x b s).env = s.env := rfl
@[simp] theorem setReg_outputs (x : RegIx) (b : Byte) (s : State) : (setReg x b s).outputs = s.outputs := rfl

@[simp] theorem setI_v (w : Word) (s : State) : (setI w s).cpu.v = s.cpu.v := rfl
@[simp] theorem setI_i (w : Word) (s : State) : (setI w s).cpu.i = w := rfl
@[simp] theorem setI_pc (w : Word) (s : State) : (setI w s).cpu.pc = s.cpu.pc := rfl
@[simp] theorem setI_sp (w : Word) (s : State) : (setI w s).cpu.sp = s.cpu.sp := rfl
@[simp] theorem setI_stack (w : Word) (s : State) : (setI w s).cpu.stack = s.cpu.stack := rfl
@[simp] theorem setI_dt (w : Word) (s : State) : (setI w s).cpu.dt = s.cpu.dt := rfl
@[simp] theorem setI_st (w : Word) (s : State) : (setI w s).cpu.st = s.cpu.st := rfl
@[simp] theorem setI_mem (w : Word) (s : State) : (setI w s).mem = s.mem := rfl
@[simp] theorem setI_fb (w : Word) (s : State) : (setI w s).fb = s.fb := rfl
@[simp] theorem setI_buzzing (w : Word) (s : State) : (setI w s).buzzing = s.buzzing := rfl
@[simp] theorem setI_osc (w : Word) (s : State) : (setI w s).osc = s.osc := rfl
@[simp] theorem setI_cfg (w : Word) (s : State) : (setI w s).cfg = s.cfg := rfl
@[simp] theorem setI_program (w : Word) (s : State) : (setI w s).program = s.program := rfl
@[simp] theorem setI_env (w : Word) (s : State) : (setI w s).env = s.env := rfl
@[simp] theorem setI_outputs (w : Word) (s : State) : (setI w s).outputs = s.outputs := rfl

@[simp] theorem setPc_v (w : Word) (s : State) : (setPc w s).cpu.v = s.cpu.v := rfl
@[simp] theorem setPc_i (w : Word) (s : State) : (setPc w s).cpu.i = s.cpu.i := rfl
@[simp] theorem setPc_pc (w : Word) (s : State) : (setPc w s).cpu.pc = w := rfl
@[simp] theorem setPc_sp (w : Word) (s : State) : (setPc w s).cpu.sp = s.cpu.sp := rfl
@[simp] theorem setPc_stack (w : Word) (s : State) : (setPc w s).cpu.stack = s.cpu.stack := rfl
@[simp] theorem setPc_dt (w : Word) (s : State) : (setPc w s).cpu.dt = s.cpu.dt := rfl
@[simp] theorem setPc_st (w : Word) (s : State) : (setPc w s).cpu.st = s.cpu.st := rfl
@[simp] theorem setPc_mem (w : Word) (s : State) : (setPc w s).mem = s.mem := rfl
@[simp] theorem setPc_fb (w : Word) (s : State) : (setPc w s).fb = s.fb := rfl
@[simp] theorem setPc_buzzing (w : Word) (s : State) : (setPc w s).buzzing = s.buzzing := rfl
@[simp] theorem setPc_osc (w : Word) (s : State) : (setPc w s).osc = s.osc := rfl
@[simp] theorem setPc_cfg (w : Word) (s : State) : (setPc w s).cfg = s.cfg := rfl
@[simp] theorem setPc_program (w : Word) (s : State) : (setPc w s).program = s.program := rfl
@[simp] theorem setPc_env (w : Word) (s : State) : (setPc w s).env = s.env := rfl
@[simp] theorem setPc_outputs (w : Word) (s : State) : (setPc w s).outputs = s.outputs := rfl

@[simp] theorem advance_v (s : State) : (advance s).cpu.v = s.cpu.v := rfl
@[simp] theorem advance_i (s : State) : (advance s).cpu.i = s.cpu.i := rfl
@[simp] theorem advance_pc (s : State) : (advance s).cpu.pc = s.cpu.pc + 2 := rfl
@[simp] theorem advance_sp (s : State) : (advance s).cpu.sp = s.cpu.sp := rfl
@[simp] theorem advance_stack (s : State) : (advance s).cpu.stack = s.cpu.stack := rfl
@[simp] theorem advance_dt (s : State) : (advance s).cpu.dt = s.cpu.dt := rfl
@[simp] theorem advance_st (s : State) : (advance s).cpu.st = s.cpu.st := rfl
@[simp] theorem advance_mem (s : State) : (advance s).mem = s.mem := rfl
@[simp] theorem advance_fb (s : State) : (advance s).fb = s.fb := rfl
@[simp] theorem advance_buzzing (s : State) : (advance s).buzzing = s.buzzing := rfl
@[simp] theorem advance_osc (s : State) : (advance s).osc = s.osc := rfl
@[simp] theorem advance_cfg (s : State) : (advance s).cfg = s.cfg := rfl
@[simp] theorem advance_program (s : State) : (advance s).program = s.program := rfl
@[simp] theorem advance_env (s : State) : (advance s).env = s.env := rfl
@[simp] theorem advance_outputs (s : State) : (advance s).outputs = s.outputs := rfl

@[simp] theorem writeDt_v (b : Byte) (s : State) : (writeDt b s).cpu.v = s.cpu.v := rfl
@[simp] theorem writeDt_i (b : Byte) (s : State) : (writeDt b s).cpu.i = s.cpu.i := rfl
@[simp] theorem writeDt_pc (b : Byte) (s : State) : (writeDt b s).cpu.pc = s.cpu.pc := rfl
@[simp] theorem writeDt_sp (b : Byte) (s : State) : (writeDt b s).cpu.sp = s.cpu.sp := rfl
@[simp] theorem writeDt_stack (b : Byte) (s : State) : (writeDt b s).cpu.stack = s.cpu.stack := rfl
@[simp] theorem writeDt_dt (b : Byte) (s : State) : (writeDt b s).cpu.dt = b := rfl
@[simp] theorem writeDt_st (b : Byte) (s : State) : (writeDt b s).cpu.st = s.cpu.st := rfl
@[simp] theorem writeDt_mem (b : Byte) (s : State) : (writeDt b s).mem = s.mem := rfl
@[simp] theorem writeDt_fb (b : Byte) (s : State) : (writeDt b s).fb = s.fb := rfl
@[simp] theorem writeDt_buzzing (b : Byte) (s : State) : (writeDt b s).buzzing = s.buzzing := rfl
@[simp] theorem writeDt_osc (b : Byte) (s : State) : (writeDt b s).osc = s.osc := rfl
@[simp] theorem writeDt_cfg (b : Byte) (s : State) : (writeDt b s).cfg = s.cfg := rfl
@[simp] theorem writeDt_program (b : Byte) (s : State) : (writeDt b s).program = s.program := rfl
@[simp] theorem writeDt_env (b : Byte) (s : State) : (writeDt b s).env = s.env := rfl
@[simp] theorem writeDt_outputs (b : Byte) (s : State) : (writeDt b s).outputs = s.outputs := rfl

@[simp] theorem dispClear_cpu (s : State) : (dispClear s).cpu = s.cpu := rfl
@[simp] theorem dispClear_mem (s : State) : (dispClear s).mem = s.mem := rfl
@[simp] theorem dispClear_fb (s : State) : (dispClear s).fb = Display.blank := rfl
@[simp] theorem dispClear_buzzing (s : State) : (dispClear s).buzzing = s.buzzing := rfl
@[simp] theorem dispClear_osc (s : State) : (dispClear s).osc = s.osc := rfl
@[simp] theorem dispClear_cfg (s : State) : (dispClear s).cfg = s.cfg := rfl
@[simp] theorem dispClear_program (s : State) : (dispClear s).program = s.program := rfl
@[simp] theorem dispClear_env (s : State) : (dispClear s).env = s.env := rfl
@[simp] theorem dispClear_outputs (s : State) : (dispClear s).outputs = s.outputs ++ [.displayClear] := rfl

@[simp] theorem dispSet_cpu (x : Fin 64) (y : Fin 32) (on : Bool) (s : State) : (dispSet x y on s).cpu = s.cpu := rfl
@[simp] theorem dispSet_mem (x : Fin 64) (y : Fin 32) (on : Bool) (s : State) : (dispSet x y on s).mem = s.mem := rfl
@[simp] theorem dispSet_fb (x : Fin 64) (y : Fin 32) (on : Bool) (s : State) : (dispSet x y on s).fb = Display.set s.fb x y on := rfl
@[simp] theorem dispSet_buzzing (x : Fin 64) (y : Fin 32) (on : Bool) (s : State) : (dispSet x y on s).buzzing = s.buzzing := rfl
@[simp] theorem dispSet_osc (x : Fin 64) (y : Fin 32) (on : Bool) (s : State) : (dispSet x y on s).osc = s.osc := rfl
@[simp] theorem dispSet_cfg (x : Fin 64) (y : Fin 32) (on : Bool) (s : State) : (dispSet x y on s).cfg = s.cfg := rfl
@[simp] theorem dispSet_program (x : Fin 64) (y : Fin 32) (on : Bool) (s : State) : (dispSet x y on s).program = s.program := rfl
@[simp] theorem dispSet_env (x : Fin 64) (y : Fin 32) (on : Bool) (s : State) : (dispSet x y on s).env = s.env := rfl
@[simp] theorem dispSet_outputs (x : Fin 64) (y : Fin 32) (on : Bool) (s : State) : (dispSet x y on s).outputs = s.outputs ++ [.displaySetPixel x y on] := rfl

@[simp] theorem memClear_cpu (s : State) : (memClear s).cpu = s.cpu := rfl
@[simp] theorem memClear_mem (s : State) : (memClear s).mem = ⟨[]⟩ := rfl
@[simp] theorem memClear_fb (s : State) : (memClear s).fb = s.fb := rfl
@[simp] theorem memClear_buzzing (s : State) : (memClear s).buzzing = s.buzzing := rfl
@[simp] theorem memClear_osc (s : State) : (memClear s).osc = s.osc := rfl
@[simp] theorem memClear_cfg (s : State) : (memClear s).cfg = s.cfg := rfl
@[simp] theorem memClear_program (s : State) : (memClear s).program = s.program := rfl
@[simp] theorem memClear_env (s : State) : (memClear s).env = s.env := rfl
@[simp] theorem memClear_outputs (s : State) : (memClear s).outputs = s.outputs ++ [.memoryRangeModified 0x000 0xFFF] := rfl

@[simp] theorem afterKeys_cpu (s : State) : (afterKeys s).cpu = s.cpu := rfl
@[simp] theorem afterKeys_mem (s : State) : (afterKeys s).mem = s.mem := rfl
@[simp] theorem afterKeys_fb (s : State) : (afterKeys s).fb = s.fb := rfl
@[simp] theorem afterKeys_buzzing (s : State) : (afterKeys s).buzzing = s.buzzing := rfl
@[simp] theorem afterKeys_osc (s : State) : (afterKeys s).osc = s.osc := rfl
@[simp] theorem afterKeys_cfg (s : State) : (afterKeys s).cfg = s.cfg := rfl
@[simp] theorem afterKeys_program (s : State) : (afterKeys s).program = s.program := rfl
@[simp] theorem afterKeys_env (s : State) : (afterKeys s).env = { s.env with keyLevels := s.env.keyLevels.tail, keySamples := s.env.keySamples + 1 } := rfl
@[simp] theorem afterKeys_outputs (s : State) : (afterKeys s).outputs = s.outputs := rfl

@[simp] theorem afterRand_cpu (s : State) : (afterRand s).cpu = s.cpu := rfl
@[simp] theorem afterRand_mem (s : State) : (afterRand s).mem = s.mem := rfl
@[simp] theorem afterRand_fb (s : State) : (afterRand s).fb = s.fb := rfl
@[simp] theorem afterRand_buzzing (s : State) : (afterRand s).buzzing = s.buzzing := rfl
@[simp] theorem afterRand_osc (s : State) : (afterRand s).osc = s.osc := rfl
@[simp] theorem afterRand_cfg (s : State) : (afterRand s).cfg = s.cfg := rfl
@[simp] theorem afterRand_program (s : State) : (afterRand s).program = s.program := rfl
@[simp] theorem afterRand_env (s : State) : (afterRand s).env = { s.env with randDraws := s.env.randDraws.tail, randCount := s.env.randCount + 1 } := rfl
@[simp] theorem afterRand_outputs (s : State) : (afterRand s).outputs = s.outputs := rfl

@[simp] theorem writeSt_v (b : Byte) (s : State) : (writeSt b s).cpu.v = s.cpu.v := by
  unfold writeSt; dsimp only; split_ifs <;> rfl
@[simp] theorem writeSt_i (b : Byte) (s : State) : (writeSt b s).cpu.i = s.cpu.i := by
  unfold writeSt; dsimp only; split_ifs <;> rfl
@[simp] theorem writeSt_pc (b : Byte) (s : State) : (writeSt b s).cpu.pc = s.cpu.pc := by
  unfold writeSt; dsimp only; split_ifs <;> rfl
@[simp] theorem writeSt_sp (b : Byte) (s : State) : (writeSt b s).cpu.sp = s.cpu.sp := by
  unfold writeSt; dsimp only; split_ifs <;> rfl
@[simp] theorem writeSt_stack (b : Byte) (s : State) : (writeSt b s).cpu.stack = s.cpu.stack := by
  unfold writeSt; dsimp only; split_ifs <;> rfl
@[simp] theorem writeSt_dt (b : Byte) (s : State) : (writeSt b s).cpu.dt = s.cpu.dt := by
  unfold writeSt; dsimp only; split_ifs <;> rfl
@[simp] theorem writeSt_mem (b : Byte) (s : State) : (writeSt b s).mem = s.mem := by
  unfold writeSt; dsimp only; split_ifs <;> rfl
@[simp] theorem writeSt_fb (b : Byte) (s : State) : (writeSt b s).fb = s.fb := by
  unfold writeSt; dsimp only; split_ifs <;> rfl
@[simp] theorem writeSt_osc (b : Byte) (s : State) : (writeSt b s).osc = s.osc := by
  unfold writeSt; dsimp only; split_ifs <;> rfl
@[simp] theorem writeSt_cfg (b : Byte) (s : State) : (writeSt b s).cfg = s.cfg := by
  unfold writeSt; dsimp only; split_ifs <;> rfl
@[simp] theorem writeSt_program (b : Byte) (s : State) : (writeSt b s).program = s.program := by
  unfold writeSt; dsimp only; split_ifs <;> rfl
@[simp] theorem writeSt_env (b : Byte) (s : State) : (writeSt b s).env = s.env := by
  unfold writeSt; dsimp only; split_ifs <;> rfl
@[simp] theorem writeSt_st (b : Byte) (s : State) : (writeSt b s).cpu.st = b := by
  unfold writeSt; dsimp only; split_ifs <;> rfl

@[simp] theorem skipIf_v (c : Bool) (s : State) : (skipIf c s).cpu.v = s.cpu.v := by
  cases c <;> rfl
@[simp] theorem skipIf_i (c : Bool) (s : State) : (skipIf c s).cpu.i = s.cpu.i := by
  cases c <;> rfl
@[simp] theorem skipIf_sp (c : Bool) (s : State) : (skipIf c s).cpu.sp = s.cpu.sp := by
  cases c <;> rfl
@[simp] theorem skipIf_stack (c : Bool) (s : State) : (skipIf c s).cpu.stack = s.cpu.stack := by
  cases c <;> rfl
@[simp] theorem skipIf_dt (c : Bool) (s : State) : (skipIf c s).cpu.dt = s.cpu.dt := by
  cases c <;> rfl
@[simp] theorem skipIf_st (c : Bool) (s : State) : (skipIf c s).cpu.st = s.cpu.st := by
  cases c <;> rfl
@[simp] theorem skipIf_mem (c : Bool) (s : State) : (skipIf c s).mem = s.mem := by
  cases c <;> rfl
@[simp] theorem skipIf_fb (c : Bool) (s : State) : (skipIf c s).fb = s.fb := by
  cases c <;> rfl
@[simp] theorem skipIf_buzzing (c : Bool) (s : State) : (skipIf c s).buzzing = s.buzzing := by
  cases c <;> rfl
@[simp] theorem skipIf_osc (c : Bool) (s : State) : (skipIf c s).osc = s.osc := by
  cases c <;> rfl
@[simp] theorem skipIf_cfg (c : Bool) (s : State) : (skipIf c s).cfg = s.cfg := by
  cases c <;> rfl
@[simp] theorem skipIf_program (c : Bool) (s : State) : (skipIf c s).program = s.program := by
  cases c <;> rfl
@[simp] theorem skipIf_env (c : Bool) (s : State) : (skipIf c s).env = s.env := by
  cases c <;> rfl
@[simp] theorem skipIf_outputs (c : Bool) (s : State) : (skipIf c s).outputs = s.outputs := by
  cases c <;> rfl
@[simp] theorem skipIf_pc (c : Bool) (s : State) :
    (skipIf c s).cpu.pc = if c then s.cpu.pc + 2 else s.cpu.pc := by
  cases c <;> rfl

@[simp] theorem takeFault_cpu (c : Cause) (o : Option Word) (a : Option Nat) (s : State) :
    (takeFault c o a s).cpu = s.cpu := rfl
@[simp] theorem takeFault_mem (c : Cause) (o : Option Word) (a : Option Nat) (s : State) :
    (takeFault c o a s).mem = s.mem := rfl
@[simp] theorem takeFault_fb (c : Cause) (o : Option Word) (a : Option Nat) (s : State) :
    (takeFault c o a s).fb = s.fb := rfl
@[simp] theorem takeFault_buzzing (c : Cause) (o : Option Word) (a : Option Nat) (s : State) :
    (takeFault c o a s).buzzing = s.buzzing := rfl
@[simp] theorem takeFault_cfg (c : Cause) (o : Option Word) (a : Option Nat) (s : State) :
    (takeFault c o a s).cfg = s.cfg := rfl
@[simp] theorem takeFault_program (c : Cause) (o : Option Word) (a : Option Nat) (s : State) :
    (takeFault c o a s).program = s.program := rfl
@[simp] theorem takeFault_env (c : Cause) (o : Option Word) (a : Option Nat) (s : State) :
    (takeFault c o a s).env = s.env := rfl

end Sys2Proof.Machine
end

