-- ==== Sys2Proof/Laws/Memory.lean ====
section
/-! SUPPORT. The laws of Memory: reading after writing, every operation keeps the canonical form, and two memories in
canonical form that read alike are equal. -/

namespace Sys2Proof.Machine

/-! ## Reading -/

@[simp] theorem Memory.get_empty (a : Nat) : (⟨[]⟩ : Memory).get a = 0 := rfl

/-- Reading a list of cells whose first is `c`. -/
theorem Memory.get_cons (c : Host.Cell) (r : List Host.Cell) (a : Nat) :
    (⟨c :: r⟩ : Memory).get a = if c.1 = a then c.2 else (⟨r⟩ : Memory).get a := by
  unfold Memory.get
  by_cases h : c.1 = a <;> simp [h]

/-- A listed cell is inserted where its address reads, if no other cell has its address. -/
theorem get_insertCell (a b : Nat) (v : Byte) (l : List Host.Cell) (h : ∀ c ∈ l, c.1 ≠ a) :
    (⟨insertCell a v l⟩ : Memory).get b = if b = a then v else (⟨l⟩ : Memory).get b := by
  induction l with
  | nil => rw [insertCell, Memory.get_cons]; simp only [eq_comm (a := a)]
  | cons c r ih =>
    have hr := ih fun d hd => h d (List.mem_cons_of_mem _ hd)
    have hc : c.1 ≠ a := h c (List.mem_cons_self ..)
    unfold insertCell
    split_ifs with hlt hb hb
    · simp [Memory.get_cons, hb]
    · rw [Memory.get_cons]
      simp [Ne.symm hb]
    · subst hb
      rw [Memory.get_cons, if_neg hc, hr, if_pos rfl]
    · rw [Memory.get_cons, Memory.get_cons, hr, if_neg hb]

/-- Cells of other addresses do not matter to a read. -/
theorem get_filter_ne (a b : Nat) (l : List Host.Cell) :
    (⟨l.filter (fun c => c.1 != a)⟩ : Memory).get b = if b = a then 0 else (⟨l⟩ : Memory).get b := by
  induction l with
  | nil => simp
  | cons c r ih =>
    by_cases hc : c.1 = a
    · rw [List.filter_cons_of_neg (by simp [hc]), ih, Memory.get_cons]
      by_cases hb : b = a
      · simp [hb]
      · simp [hb, hc, Ne.symm hb]
    · rw [List.filter_cons_of_pos (by simp [hc]), Memory.get_cons, ih, Memory.get_cons]
      by_cases hb : b = a
      · subst hb; simp [hc]
      · simp [hb]

/-- Reading after writing one byte, at any address of any memory. -/
theorem Memory.get_set (m : Memory) (a b : Nat) (v : Byte) :
    (m.set a v).get b = if b = a then v else m.get b := by
  unfold Memory.set
  dsimp only
  split_ifs with hv hb hb
  · rw [get_filter_ne, if_pos hb, hv]
  · rw [get_filter_ne, if_neg hb]
  · rw [get_insertCell _ _ _ _ (by simp), if_pos hb]
  · rw [get_insertCell _ _ _ _ (by simp), if_neg hb, get_filter_ne, if_neg hb]

@[simp] theorem Memory.get_set_same (m : Memory) (a : Nat) (v : Byte) : (m.set a v).get a = v := by
  simp [Memory.get_set]

theorem Memory.get_set_other (m : Memory) {a b : Nat} (v : Byte) (h : b ≠ a) : (m.set a v).get b = m.get b := by
  simp [Memory.get_set, h]

/-- Reading after a range write. -/
theorem Memory.get_setRange (m : Memory) (start b : Nat) (bytes : List Byte) :
    (m.setRange start bytes).get b =
      if start ≤ b ∧ b < start + bytes.length then bytes.getD (b - start) 0 else m.get b := by
  induction bytes generalizing m start with
  | nil => simp only [Memory.setRange, List.length_nil]; rw [if_neg (by omega)]
  | cons v bs ih =>
    rw [Memory.setRange, ih, Memory.get_set]
    by_cases h1 : start + 1 ≤ b ∧ b < start + 1 + bs.length
    · rw [if_pos h1, if_pos ⟨by omega, by simp; omega⟩]
      obtain ⟨k, rfl⟩ : ∃ k, b = start + 1 + k := ⟨b - (start + 1), by omega⟩
      rw [show start + 1 + k - (start + 1) = k by omega, show start + 1 + k - start = k + 1 by omega]
      rfl
    · rw [if_neg h1]
      by_cases h2 : b = start
      · subst h2
        rw [if_pos rfl, if_pos ⟨le_rfl, by simp⟩]
        simp
      · rw [if_neg h2, if_neg (by simp; omega)]

/-! ## The canonical form -/

theorem Memory.wf_empty : (⟨[]⟩ : Memory).wf := by decide

theorem mem_insertCell (a : Nat) (v : Byte) (l : List Host.Cell) (c : Host.Cell) :
    c ∈ insertCell a v l ↔ c = (a, v) ∨ c ∈ l := by
  induction l with
  | nil => simp [insertCell]
  | cons d r ih =>
    unfold insertCell
    split_ifs
    · simp
    · simp only [List.mem_cons, ih]; tauto

theorem pairwise_insertCell (a : Nat) (v : Byte) (l : List Host.Cell)
    (hl : l.Pairwise (fun c d => c.1 < d.1)) (h : ∀ c ∈ l, c.1 ≠ a) :
    (insertCell a v l).Pairwise (fun c d => c.1 < d.1) := by
  induction l with
  | nil => simp [insertCell]
  | cons d r ih =>
    obtain ⟨hd, hr⟩ := List.pairwise_cons.1 hl
    have hda : d.1 ≠ a := h d (List.mem_cons_self ..)
    unfold insertCell
    split_ifs with hlt
    · refine List.pairwise_cons.2 ⟨fun c hc => ?_, hl⟩
      rcases List.mem_cons.1 hc with rfl | hc
      · exact hlt
      · exact hlt.trans (hd c hc)
    · refine List.pairwise_cons.2 ⟨fun c hc => ?_, ih hr fun c hc => h c (List.mem_cons_of_mem _ hc)⟩
      rcases (mem_insertCell ..).1 hc with rfl | hc
      · show d.1 < a
        omega
      · exact hd c hc

/-- Writing one byte inside Memory keeps the canonical form. -/
theorem Memory.wf_set {m : Memory} (h : m.wf) {a : Nat} (ha : a < 4096) (v : Byte) : (m.set a v).wf := by
  obtain ⟨hs, hc⟩ := h
  have hf := hs.filter (fun c => c.1 != a)
  unfold Memory.set
  dsimp only
  split_ifs with hv
  · exact ⟨hf, fun c hm => hc c (List.mem_filter.1 hm).1⟩
  · refine ⟨pairwise_insertCell _ _ _ hf (by simp), fun c hm => ?_⟩
    rcases (mem_insertCell ..).1 hm with rfl | hm
    · exact ⟨ha, hv⟩
    · exact hc c (List.mem_filter.1 hm).1

/-- A range write inside Memory keeps the canonical form. -/
theorem Memory.wf_setRange {m : Memory} (h : m.wf) (start : Nat) (bytes : List Byte)
    (hb : start + bytes.length ≤ 4096) : (m.setRange start bytes).wf := by
  induction bytes generalizing m start with
  | nil => exact h
  | cons v bs ih =>
    simp only [List.length_cons] at hb
    exact ih (Memory.wf_set h (by omega) v) (start + 1) (by omega)

/-- In canonical form an address below every listed one reads 0. -/
theorem get_eq_zero_of_lt (l : List Host.Cell) (a : Nat) (h : ∀ c ∈ l, a < c.1) : (⟨l⟩ : Memory).get a = 0 := by
  unfold Memory.get
  rw [List.find?_eq_none.2 fun c hc => by have := h c hc; simp; omega]

/-- Two memories in canonical form that read alike are equal data. -/
theorem Memory.ext_get {m n : Memory} (hm : m.wf) (hn : n.wf) (h : ∀ a, m.get a = n.get a) : m = n := by
  obtain ⟨l⟩ := m
  obtain ⟨k⟩ := n
  obtain ⟨hl, hl0⟩ := hm
  obtain ⟨hk, hk0⟩ := hn
  simp only at hl hl0 hk hk0
  congr 1
  induction l generalizing k with
  | nil =>
    cases k with
    | nil => rfl
    | cons d r =>
      have := h d.1
      rw [Memory.get_empty, Memory.get_cons, if_pos rfl] at this
      exact absurd this.symm (hk0 d (List.mem_cons_self ..)).2
  | cons c r ih =>
    obtain ⟨hc, hr⟩ := List.pairwise_cons.1 hl
    cases k with
    | nil =>
      have := h c.1
      rw [Memory.get_empty, Memory.get_cons, if_pos rfl] at this
      exact absurd this (hl0 c (List.mem_cons_self ..)).2
    | cons d q =>
      obtain ⟨hd, hq⟩ := List.pairwise_cons.1 hk
      have hcd : c.1 = d.1 := by
        rcases lt_trichotomy c.1 d.1 with hlt | heq | hgt
        · have := h c.1
          rw [Memory.get_cons, if_pos rfl, get_eq_zero_of_lt (d :: q)] at this
          · exact absurd this (hl0 c (List.mem_cons_self ..)).2
          · intro e he
            rcases List.mem_cons.1 he with rfl | he
            · exact hlt
            · exact hlt.trans (hd e he)
        · exact heq
        · have := h d.1
          rw [get_eq_zero_of_lt (c :: r), Memory.get_cons, if_pos rfl] at this
          · exact absurd this.symm (hk0 d (List.mem_cons_self ..)).2
          · intro e he
            rcases List.mem_cons.1 he with rfl | he
            · exact hgt
            · exact hgt.trans (hc e he)
      have hval : c.2 = d.2 := by
        have := h c.1
        rwa [Memory.get_cons, if_pos rfl, Memory.get_cons, if_pos hcd.symm] at this
      have htail : ∀ a, (⟨r⟩ : Memory).get a = (⟨q⟩ : Memory).get a := by
        intro a
        by_cases ha : a ≤ c.1
        · rw [get_eq_zero_of_lt r a fun e he => by have := hc e he; omega,
            get_eq_zero_of_lt q a fun e he => by have := hd e he; omega]
        · have := h a
          rwa [Memory.get_cons, if_neg (by omega), Memory.get_cons, if_neg (by omega)] at this
      rw [Prod.ext hcd hval, ih q htail hr (fun e he => hl0 e (List.mem_cons_of_mem _ he)) hq
        fun e he => hk0 e (List.mem_cons_of_mem _ he)]

end Sys2Proof.Machine
end

