-- ==== Sys2Proof/Laws/Ops.lean ====
section
/-! SUPPORT. One lemma per shared operation that says everything it can do; later proofs cite these and do not unfold
the operation. -/

namespace Sys2Proof.Machine

/-! ## Raising -/

@[simp] theorem bind_done {α β : Type} (a : α) (f : α → Attempt β) : (Attempt.done a).bind f = f a := rfl

@[simp] theorem bind_raise {α β : Type} (c : Cause) (x : Option Nat) (f : α → Attempt β) :
    (Attempt.raise c x).bind f = .raise c x := rfl

@[simp] theorem map_done {α β : Type} (a : α) (f : α → β) : (Attempt.done a).map f = .done (f a) := rfl

@[simp] theorem map_raise {α β : Type} (c : Cause) (x : Option Nat) (f : α → β) :
    (Attempt.raise c x : Attempt α).map f = .raise c x := rfl

@[simp] theorem map_stop {α β : Type} (e : Fault) (f : α → β) : (Attempt.stop e : Attempt α).map f = .stop e := rfl

@[simp] theorem settle_done (i : Instr) (s t : State) : settle i s (.done t) = .next t := rfl

/-- Taking a fault leaves the state the halt sequence describes (60_exceptions.md R205). -/
theorem takeFault_eq (c : Cause) (o : Option Word) (a : Option Nat) (s : State) :
    takeFault c o a s = haltedState s ⟨c, o, s.cpu.pc, a⟩ := by
  unfold takeFault haltedState emit
  cases s.cfg.stopWhenHalted <;> simp

@[simp] theorem settle_raise (i : Instr) (s : State) (c : Cause) (a : Option Nat) :
    settle i s (.raise c a) = .next (haltedState s ⟨c, some (encode i), s.cpu.pc, a⟩) := by
  rw [← takeFault_eq]; rfl

@[simp] theorem settle_stop (i : Instr) (s : State) (f : Fault) : settle i s (.stop f) = .fault f := rfl

/-! ## Memory -/

theorem memRead_inside {a : Nat} (h : a < 4096) (s : State) : memRead a s = .done (s.mem.get a) := if_pos h

theorem memRead_outside {a : Nat} (h : 4096 ≤ a) (s : State) : memRead a s = .raise .outOfRange (some a) :=
  if_neg (by simp; omega)

/-- The fetch of a word inside Memory. -/
theorem memReadWord_inside {a : Nat} (h : a + 1 < 4096) (s : State) :
    memReadWord a s = .done (wordOfBytes (s.mem.get a) (s.mem.get (a + 1))) := by
  simp [memReadWord, memRead_inside h, memRead_inside (show a < 4096 by omega)]

/-- The fetch of a word that does not lie in Memory: the first byte outside is reported. -/
theorem memReadWord_outside {a : Nat} (h : 4096 ≤ a + 1) (s : State) :
    memReadWord a s = .raise .outOfRange (some (max a 4096)) := by
  unfold memReadWord
  by_cases ha : a < 4096
  · rw [memRead_inside ha, bind_done, memRead_outside h, bind_raise, show a + 1 = max a 4096 by omega]
  · rw [memRead_outside (by omega), bind_raise, show max a 4096 = a by omega]

theorem checkSpan_inside {start len : Nat} (h : len = 0 ∨ start + len ≤ 4096) : checkSpan start len = .done () :=
  if_pos (by simp; omega)

theorem checkSpan_outside {start len : Nat} (hl : 0 < len) (h : 4096 < start + len) :
    checkSpan start len = .raise .outOfRange (some (max start 4096)) :=
  if_neg (by simp; omega)

theorem memWrite_inside {a : Nat} (h : a < 4096) (v : Byte) (s : State) :
    memWrite a v s = .done
      { s with
        mem := s.mem.set a v
        outputs := s.outputs ++ if v = s.mem.get a then [] else [.memoryModified a (s.mem.get a) v] } := by
  unfold memWrite
  rw [if_pos h]
  dsimp only
  split_ifs <;> simp [emit]

theorem memWrite_outside {a : Nat} (h : 4096 ≤ a) (v : Byte) (s : State) :
    memWrite a v s = .raise .outOfRange (some a) := if_neg (by simp; omega)

/-- A range write inside Memory: all bytes and one notification, or nothing for no bytes. -/
theorem memWriteRange_inside {start : Nat} {bytes : List Byte} (h : start + bytes.length ≤ 4096) (s : State) :
    memWriteRange start bytes s = .done
      { s with
        mem := s.mem.setRange start bytes
        outputs := s.outputs ++
          if bytes = [] then [] else [.memoryRangeModified start (start + bytes.length - 1)] } := by
  unfold memWriteRange
  cases bytes with
  | nil => simp [Memory.setRange]
  | cons b bs =>
    rw [if_neg (by simp), checkSpan_inside (Or.inr h), map_done]
    simp [emit]

/-- A range write that runs out of Memory raises before any byte is written. -/
theorem memWriteRange_outside {start : Nat} {bytes : List Byte} (hb : bytes ≠ [])
    (h : 4096 < start + bytes.length) (s : State) :
    memWriteRange start bytes s = .raise .outOfRange (some (max start 4096)) := by
  have hl : 0 < bytes.length := List.length_pos_iff.2 hb
  unfold memWriteRange
  rw [if_neg (by omega), checkSpan_outside hl h, map_raise]

theorem memReadSpan_inside {start len : Nat} (h : len = 0 ∨ start + len ≤ 4096) (s : State) :
    memReadSpan start len s = .done ((List.range len).map fun k => s.mem.get (start + k)) := by
  unfold memReadSpan
  rw [checkSpan_inside h, map_done]

theorem memReadSpan_outside {start len : Nat} (hl : 0 < len) (h : 4096 < start + len) (s : State) :
    memReadSpan start len s = .raise .outOfRange (some (max start 4096)) := by
  unfold memReadSpan
  rw [checkSpan_outside hl h, map_raise]

/-! ## Registers -/

/-- Reading a register file after writing one register. -/
theorem get_set_reg (v : Vector Byte 16) (x k : RegIx) (b : Byte) :
    (v.set x.val b x.isLt).get k = if k = x then b else v.get k := by
  simp only [Vector.get_eq_getElem, Vector.getElem_set, Fin.ext_iff, eq_comm]

@[simp] theorem reg_setReg (x k : RegIx) (b : Byte) (s : State) :
    reg k (setReg x b s) = if k = x then b else reg k s := get_set_reg ..

/-- Writing registers in ascending order changes nothing but the registers. -/
theorem setRegsFrom_eq (k : Nat) (bytes : List Byte) (s : State) :
    setRegsFrom k bytes s = { s with cpu := { s.cpu with v := (setRegsFrom k bytes s).cpu.v } } := by
  induction bytes generalizing k s with
  | nil => rfl
  | cons b bs ih =>
    rw [setRegsFrom, ih]
    split_ifs <;> simp [setReg]

/-- The registers after writing `bytes` from register `k` upward. -/
theorem reg_setRegsFrom (k : Nat) (bytes : List Byte) (s : State) (x : RegIx) :
    reg x (setRegsFrom k bytes s) =
      if k ≤ x.val ∧ x.val < k + bytes.length then bytes.getD (x.val - k) 0 else reg x s := by
  induction bytes generalizing k s with
  | nil => simp only [setRegsFrom, List.length_nil]; rw [if_neg (by omega)]
  | cons b bs ih =>
    rw [setRegsFrom, ih]
    by_cases h1 : k + 1 ≤ x.val ∧ x.val < k + 1 + bs.length
    · rw [if_pos h1, if_pos ⟨by omega, by simp; omega⟩]
      obtain ⟨j, hj⟩ : ∃ j, x.val = k + 1 + j := ⟨x.val - (k + 1), by omega⟩
      rw [hj, show k + 1 + j - (k + 1) = j by omega, show k + 1 + j - k = j + 1 by omega]
      rfl
    · rw [if_neg h1]
      by_cases h2 : x.val = k
      · rw [if_pos ⟨by omega, by simp; omega⟩, dif_pos (by omega), reg_setReg,
          if_pos (Fin.ext (by simp [h2]))]
        simp [h2]
      · rw [if_neg (by simp; omega)]
        split_ifs with h
        · rw [reg_setReg, if_neg fun e => h2 (by rw [e])]
        · rfl

/-- The index update writes I and nothing else (40_data_ops.md R126). -/
theorem blockIndexUpdate_eq (x : RegIx) (s : State) :
    blockIndexUpdate x s =
      setI (if s.cfg.modifyI then s.cpu.i + BitVec.ofNat 16 (x.val + 1) else s.cpu.i) s := by
  unfold blockIndexUpdate
  split_ifs <;> rfl

/-- V0 to Vx as a list. -/
theorem length_regsUpTo (x : RegIx) (s : State) : (regsUpTo x s).length = x.val + 1 := by
  simp only [regsUpTo, List.length_take, Vector.length_toList]; omega

theorem getD_regsUpTo (x k : RegIx) (h : k.val ≤ x.val) (s : State) : (regsUpTo x s).getD k.val 0 = reg k s := by
  have hk : k.val < (regsUpTo x s).length := by rw [length_regsUpTo]; omega
  rw [List.getD_eq_getElem _ _ hk]
  simp [regsUpTo, reg, Vector.get_eq_getElem]

/-! ## Stack -/

theorem push_room (a : Word) (s : State) (h : s.cpu.sp.toNat < 16) :
    push a s = .done
      { s with cpu := { s.cpu with stack := s.cpu.stack.set s.cpu.sp.toNat a h, sp := s.cpu.sp + 1 } } := by
  unfold push
  rw [if_neg (by intro e; rw [e] at h; simp at h), dif_pos h]

theorem push_full (a : Word) (s : State) (h : s.cpu.sp = 16) : push a s = .raise .stackOverflow none := if_pos h

theorem pop_live (s : State) (h0 : s.cpu.sp ≠ 0) (h : s.cpu.sp.toNat - 1 < 16) :
    pop s = .done (s.cpu.stack[s.cpu.sp.toNat - 1], { s with cpu := { s.cpu with sp := s.cpu.sp - 1 } }) := by
  unfold pop
  rw [if_neg h0, dif_pos h]

theorem pop_empty (s : State) (h : s.cpu.sp = 0) : pop s = .raise .stackUnderflow none := if_pos h

/-! ## Display -/

/-- Reading a pixel after writing one. -/
theorem Display.get_set (fb : Display) (x px : Fin 64) (y py : Fin 32) (on : Bool) :
    Display.get (Display.set fb x y on) px py = if px = x ∧ py = y then on else Display.get fb px py := by
  unfold Display.get Display.set
  by_cases hx : px = x
  · subst hx
    by_cases hy : py = y
    · subst hy; simp [Vector.get_eq_getElem]
    · have : y.val ≠ py.val := fun e => hy (Fin.ext e.symm)
      simp [Vector.get_eq_getElem, hy, this]
  · have : x.val ≠ px.val := fun e => hx (Fin.ext e.symm)
    simp [Vector.get_eq_getElem, hx, this]

/-- A draw changes nothing but the display and the outputs. -/
theorem foldl_drawPixel_eq (ps : List (Fin 64 × Fin 32)) (s : State) (hit : Bool) :
    (ps.foldl drawPixel (s, hit)).1 =
      { s with fb := (ps.foldl drawPixel (s, hit)).1.fb, outputs := (ps.foldl drawPixel (s, hit)).1.outputs } := by
  induction ps generalizing s hit with
  | nil => rfl
  | cons p ps ih =>
    rw [List.foldl_cons]
    generalize hd : drawPixel (s, hit) p = r
    obtain ⟨t, b⟩ := r
    rw [ih]
    have : t = { s with fb := t.fb, outputs := t.outputs } := by
      have := congrArg Prod.fst hd
      simp only [drawPixel] at this
      rw [← this]
      simp [dispSet, emit]
    rw [this]

/-! ## Input ports -/

/-- One sample of `keys`: the level it sees and what it leaves in store. -/
theorem samplesKeys_next (s : State) : samplesKeys s (nextKeys s.env) (afterKeys s).env.keyLevels := by
  unfold samplesKeys nextKeys afterKeys
  cases h : s.env.keyLevels <;> simp

theorem nextKeys_eq {s : State} {keys : Word} {later : List Word} (h : samplesKeys s keys later) :
    nextKeys s.env = keys ∧
      (afterKeys s).env = { s.env with keyLevels := later, keySamples := s.env.keySamples + 1 } := by
  rcases h with h | ⟨h, rfl, rfl⟩ <;> simp [nextKeys, afterKeys, h]

/-- One draw of `rand`: the byte it sees and what it leaves in store. -/
theorem drawsRand_next (s : State) : drawsRand s (nextRand s.env) (afterRand s).env.randDraws := by
  unfold drawsRand nextRand afterRand
  cases h : s.env.randDraws <;> simp

theorem nextRand_eq {s : State} {b : Byte} {later : List Byte} (h : drawsRand s b later) :
    nextRand s.env = b ∧
      (afterRand s).env = { s.env with randDraws := later, randCount := s.env.randCount + 1 } := by
  rcases h with h | ⟨h, rfl, rfl⟩ <;> simp [nextRand, afterRand, h]

/-! ## Sound timer -/

/-- A write to ST keeps the Buzzer in step with it (60_exceptions.md R231). -/
theorem buzzing_writeSt (b : Byte) (s : State) (h : s.buzzing = true ↔ s.cpu.st ≠ 0) :
    (writeSt b s).buzzing = true ↔ b ≠ 0 := by
  unfold writeSt
  dsimp only
  split_ifs with h1 h2
  · simpa [emit] using h1.2
  · simpa [emit] using h2.2
  · simp only [h]
    by_cases hs : s.cpu.st = 0 <;> by_cases hb : b = 0 <;> simp_all

end Sys2Proof.Machine
end

