-- ==== Sys2Proof/Laws/Step.lean ====
section
/-! SUPPORT. Everything one step can do, once: between ticks an input, inside a tick a fetch fault, a decode fault or
an executed instruction; and everything that can follow an executed instruction. -/

namespace Sys2Proof.Machine

theorem step_between {s : State} (h : s.osc.stepsLeft = 0) : step s = takeInput s := by
  simp [step, nextAction, h]

theorem step_settled {s : State} {r : Result} (h : inTick s) (hf : fetchPhase s = .settled r) : step s = r := by
  simp only [step, nextAction, if_neg h, hf]

theorem step_execute {s : State} {i : Instr} (h : inTick s) (hf : fetchPhase s = .execute i) :
    step s = afterExec (exec i s) := by
  simp only [step, nextAction, if_neg h, hf]

theorem fetchPhase_inside {s : State} {op : Word} (h : fetches s op) : fetchPhase s = decodePhase op s := by
  unfold fetchPhase
  rw [memReadWord_inside h.1, h.2]

theorem fetchPhase_outside {s : State} (h : 4096 ≤ s.cpu.pc.toNat + 1) :
    fetchPhase s = .settled
      (.next (haltedState s ⟨.outOfRange, none, s.cpu.pc, some (max s.cpu.pc.toNat 4096)⟩)) := by
  unfold fetchPhase
  rw [memReadWord_outside h, ← takeFault_eq]

/-- The four things one step can be. -/
theorem step_cases (s : State) :
    (s.osc.stepsLeft = 0 ∧ step s = takeInput s) ∨
    (inTick s ∧ 4096 ≤ s.cpu.pc.toNat + 1 ∧
      step s = .next (haltedState s ⟨.outOfRange, none, s.cpu.pc, some (max s.cpu.pc.toNat 4096)⟩)) ∨
    (∃ op, inTick s ∧ fetches s op ∧ decodeWord op = none ∧
      step s = .next (haltedState s ⟨.unknownOpcode, some op, s.cpu.pc, none⟩)) ∨
    (∃ op i, inTick s ∧ fetches s op ∧ decodeWord op = some i ∧ step s = afterExec (exec i s)) := by
  by_cases h : s.osc.stepsLeft = 0
  · exact .inl ⟨h, step_between h⟩
  · by_cases hp : s.cpu.pc.toNat + 1 < 4096
    · have hf : fetches s _ := ⟨hp, rfl⟩
      cases hd : decodeWord (wordOfBytes (s.mem.get s.cpu.pc.toNat) (s.mem.get (s.cpu.pc.toNat + 1))) with
      | none =>
        refine .inr (.inr (.inl ⟨_, h, hf, hd, ?_⟩))
        exact step_settled h (by simp only [fetchPhase_inside hf, decodePhase, hd, takeFault_eq])
      | some i =>
        refine .inr (.inr (.inr ⟨_, i, h, hf, hd, ?_⟩))
        exact step_execute h (by simp only [fetchPhase_inside hf, decodePhase, hd])
    · refine .inr (.inl ⟨h, by omega, ?_⟩)
      exact step_settled h (fetchPhase_outside (by omega))

/-- After an instruction that faulted the tick is over. -/
theorem finishStep_faulted {s : State} (h : s.osc.stepsLeft = 0) : finishStep s = s := by
  simp [finishStep, h]

/-- After the last instruction of a batch the tick ends. -/
theorem finishStep_last {s : State} (h : s.osc.stepsLeft = 1) :
    finishStep s = endTick { s with osc := { s.osc with stepsLeft := 0 } } := by
  simp [finishStep, h]

/-- After any other instruction one Step fewer is left and nothing else changes. -/
theorem finishStep_more {s : State} {k : Nat} (h : s.osc.stepsLeft = k + 2) :
    finishStep s = { s with osc := { s.osc with stepsLeft := k + 1 } } := by
  simp [finishStep, h]

/-- An induction over a run, once: what holds of a state and is kept by every step holds of all it reaches. -/
theorem reaches_keeps {P : State → Prop} (hstep : ∀ s t, P s → step s = .next t → P t) {s t : State}
    (h : Reaches s t) (hs : P s) : P t := by
  induction h with
  | refl => exact hs
  | next _ hst ih => exact hstep _ _ ih hst

end Sys2Proof.Machine
end

