-- ==== Sys2Proof/Laws/Commands.lean ====
section
/-! SUPPORT. One lemma per part of the resets and of loading, each as the state it leaves; and what an input does
between ticks. -/

namespace Sys2Proof.Machine

/-- An image that fits is written with one notification, or nothing for no bytes (20_memory.md R54). -/
theorem loadImage_fits {start : Nat} {image : List Byte} (h : start + image.length ≤ 4096) (s : State) :
    loadImage start image s = some
      { s with
        mem := s.mem.setRange start image
        outputs := s.outputs ++ rangeEvent start image.length } := by
  unfold loadImage
  rw [memWriteRange_inside h]
  by_cases hb : image = [] <;> simp [rangeEvent, hb]

/-- The reload of the stored program, which counts as empty when there is none (70_reset_and_hazards.md R252). -/
theorem reloadProgram_fits {s : State} (h : (s.program.getD []).length ≤ 3584) :
    reloadProgram s = some
      { s with
        mem := s.mem.setRange 0x200 (s.program.getD [])
        outputs := s.outputs ++ rangeEvent 0x200 (s.program.getD []).length } := by
  obtain ⟨cpu, mem, fb, buzzing, osc, cfg, program, env, outputs⟩ := s
  unfold reloadProgram
  cases program with
  | none => simp [rangeEvent, Memory.setRange]
  | some image =>
    have hl : image.length ≤ 3584 := h
    exact loadImage_fits (by show 0x200 + image.length ≤ 4096; omega) _

/-- The Display part of both resets (70_reset_and_hazards.md R260). -/
theorem clearScreenIfSet_eq (s : State) :
    clearScreenIfSet s =
      { s with
        fb := if s.cfg.clearScreenOnReset then Display.blank else s.fb
        outputs := s.outputs ++ if s.cfg.clearScreenOnReset then [.displayClear] else [] } := by
  unfold clearScreenIfSet
  split_ifs <;> simp [dispClear, emit]

/-- The Processor part of both resets (70_reset_and_hazards.md R256, R261). -/
theorem resetProcessor_eq (s : State) :
    resetProcessor s =
      { s with
        cpu := Processor.initial
        buzzing := if s.cpu.st = 0 then s.buzzing else false
        outputs := s.outputs ++ if s.cpu.st = 0 then [] else [.buzzerStop] } := by
  unfold resetProcessor writeSt
  dsimp only
  by_cases h : s.cpu.st = 0
  · rw [if_neg (by simp), if_neg (by simp [h]), if_pos h, if_pos h, List.append_nil]
    rfl
  · rw [if_neg (by simp), if_pos ⟨h, rfl⟩, if_neg h, if_neg h]
    rfl

/-- The whole warm reset, when the stored program fits (70_reset_and_hazards.md R253). -/
theorem restart_eq {s : State} (h : (s.program.getD []).length ≤ 3584) :
    restart s = some
      { s with
        cpu := Processor.initial
        mem := s.mem.setRange 0x200 (s.program.getD [])
        fb := if s.cfg.clearScreenOnReset then Display.blank else s.fb
        buzzing := if s.cpu.st = 0 then s.buzzing else false
        osc := Oscillator.initial
        outputs := s.outputs ++ (if s.cfg.clearScreenOnReset then [.displayClear] else []) ++
          rangeEvent 0x200 (s.program.getD []).length ++ if s.cpu.st = 0 then [] else [.buzzerStop] } := by
  rw [restart, clearScreenIfSet_eq, reloadProgram_fits (by exact h), Option.map_some, resetProcessor_eq,
    resetOscillator]

/-- The whole cold reset, when the stored program and the font fit (70_reset_and_hazards.md R252). -/
theorem powerCycle_eq {s : State} (hf : s.cfg.fontBase.toNat + s.cfg.fontImage.length ≤ 4096)
    (h : (s.program.getD []).length ≤ 3584) :
    powerCycle s = some
      { s with
        cpu := Processor.initial
        mem := ((⟨[]⟩ : Memory).setRange s.cfg.fontBase.toNat s.cfg.fontImage).setRange 0x200 (s.program.getD [])
        fb := if s.cfg.clearScreenOnReset then Display.blank else s.fb
        buzzing := if s.cpu.st = 0 then s.buzzing else false
        osc := Oscillator.initial
        outputs := s.outputs ++ [.memoryRangeModified 0x000 0xFFF] ++
          rangeEvent s.cfg.fontBase.toNat s.cfg.fontImage.length ++
          (if s.cfg.clearScreenOnReset then [.displayClear] else []) ++
          rangeEvent 0x200 (s.program.getD []).length ++ if s.cpu.st = 0 then [] else [.buzzerStop] } := by
  rw [powerCycle, loadImage_fits (by exact hf), Option.bind_some, clearScreenIfSet_eq,
    reloadProgram_fits (by exact h), Option.map_some, resetProcessor_eq, resetOscillator]
  rfl

/-- A reset Processor, field by field (10_state.md R37). -/
theorem initial_registers :
    (∀ k, Processor.initial.v.get k = 0) ∧ (∀ k, Processor.initial.stack.get k = 0) ∧
    (∀ px py, Display.get Display.blank px py = false) := by
  refine ⟨fun k => ?_, fun k => ?_, fun px py => ?_⟩ <;>
    simp [Processor.initial, Display.get, Display.blank, Vector.get_eq_getElem]

/-- Between ticks a step is the next input (60_exceptions.md R229). -/
theorem step_input {s : State} {i : Input} {rest : List Input} (h : nextInput s i rest) :
    step s = applyInput i (inputTaken s rest) := by
  rw [step_between h.1, takeInput, h.2]
  rfl

end Sys2Proof.Machine
end

