-- ==== Sys2Proof/Laws/PerInstr.lean ====
section
/-! SUPPORT. Laws stated for every instruction, one lemma per constructor. Family FieldsRebuild: the operand view of an
instruction loses nothing, since its fields pass the check of its row's format and rebuild it. -/

namespace Sys2Proof.Laws.FieldsRebuild

/-- The fields of an instruction rebuild it. -/
def Statement (i : Instr) : Prop := Instr.ofFields i.op i.fields = some i

/-- It is enough that the fields pass the check and the row's instruction of them is the one they came from. -/
theorem of_check {i : Instr} (h : i.fields.wellFormed i.op.format = true) (hi : i.op.instr i.fields = i) :
    Statement i := by
  rw [Statement, Instr.ofFields, if_pos h, hi]

/-- The check, as bounds. -/
theorem check_of_bounds (fmt : Format) (f : Fields)
    (h : f.x < fmt.limits.x ∧ f.y < fmt.limits.y ∧ f.n < fmt.limits.n ∧ f.kk < fmt.limits.kk ∧
      f.nnn < fmt.limits.nnn) : f.wellFormed fmt = true := by
  simp [Fields.wellFormed, h]

theorem cls : Statement .cls := rfl

theorem ret : Statement .ret := rfl

theorem jp (nnn : Addr) : Statement (.jp nnn) :=
  of_check (check_of_bounds _ _ ⟨Nat.one_pos, Nat.one_pos, Nat.one_pos, Nat.one_pos, nnn.isLt⟩)
    (by simp [Instr.op, Instr.fields, Op.instr])

theorem call (nnn : Addr) : Statement (.call nnn) :=
  of_check (check_of_bounds _ _ ⟨Nat.one_pos, Nat.one_pos, Nat.one_pos, Nat.one_pos, nnn.isLt⟩)
    (by simp [Instr.op, Instr.fields, Op.instr])

theorem seImm (x : RegIx) (kk : Byte) : Statement (.seImm x kk) :=
  of_check (check_of_bounds _ _ ⟨x.isLt, Nat.one_pos, Nat.one_pos, kk.isLt, Nat.one_pos⟩)
    (by simp [Instr.op, Instr.fields, Op.instr])

theorem sneImm (x : RegIx) (kk : Byte) : Statement (.sneImm x kk) :=
  of_check (check_of_bounds _ _ ⟨x.isLt, Nat.one_pos, Nat.one_pos, kk.isLt, Nat.one_pos⟩)
    (by simp [Instr.op, Instr.fields, Op.instr])

theorem seReg (x y : RegIx) : Statement (.seReg x y) :=
  of_check (check_of_bounds _ _ ⟨x.isLt, y.isLt, Nat.one_pos, Nat.one_pos, Nat.one_pos⟩)
    (by simp [Instr.op, Instr.fields, Op.instr])

theorem ldImm (x : RegIx) (kk : Byte) : Statement (.ldImm x kk) :=
  of_check (check_of_bounds _ _ ⟨x.isLt, Nat.one_pos, Nat.one_pos, kk.isLt, Nat.one_pos⟩)
    (by simp [Instr.op, Instr.fields, Op.instr])

theorem addImm (x : RegIx) (kk : Byte) : Statement (.addImm x kk) :=
  of_check (check_of_bounds _ _ ⟨x.isLt, Nat.one_pos, Nat.one_pos, kk.isLt, Nat.one_pos⟩)
    (by simp [Instr.op, Instr.fields, Op.instr])

theorem ldReg (x y : RegIx) : Statement (.ldReg x y) :=
  of_check (check_of_bounds _ _ ⟨x.isLt, y.isLt, Nat.one_pos, Nat.one_pos, Nat.one_pos⟩)
    (by simp [Instr.op, Instr.fields, Op.instr])

theorem orReg (x y : RegIx) : Statement (.orReg x y) :=
  of_check (check_of_bounds _ _ ⟨x.isLt, y.isLt, Nat.one_pos, Nat.one_pos, Nat.one_pos⟩)
    (by simp [Instr.op, Instr.fields, Op.instr])

theorem andReg (x y : RegIx) : Statement (.andReg x y) :=
  of_check (check_of_bounds _ _ ⟨x.isLt, y.isLt, Nat.one_pos, Nat.one_pos, Nat.one_pos⟩)
    (by simp [Instr.op, Instr.fields, Op.instr])

theorem xorReg (x y : RegIx) : Statement (.xorReg x y) :=
  of_check (check_of_bounds _ _ ⟨x.isLt, y.isLt, Nat.one_pos, Nat.one_pos, Nat.one_pos⟩)
    (by simp [Instr.op, Instr.fields, Op.instr])

theorem addReg (x y : RegIx) : Statement (.addReg x y) :=
  of_check (check_of_bounds _ _ ⟨x.isLt, y.isLt, Nat.one_pos, Nat.one_pos, Nat.one_pos⟩)
    (by simp [Instr.op, Instr.fields, Op.instr])

theorem subReg (x y : RegIx) : Statement (.subReg x y) :=
  of_check (check_of_bounds _ _ ⟨x.isLt, y.isLt, Nat.one_pos, Nat.one_pos, Nat.one_pos⟩)
    (by simp [Instr.op, Instr.fields, Op.instr])

theorem shr (x y : RegIx) : Statement (.shr x y) :=
  of_check (check_of_bounds _ _ ⟨x.isLt, y.isLt, Nat.one_pos, Nat.one_pos, Nat.one_pos⟩)
    (by simp [Instr.op, Instr.fields, Op.instr])

theorem subnReg (x y : RegIx) : Statement (.subnReg x y) :=
  of_check (check_of_bounds _ _ ⟨x.isLt, y.isLt, Nat.one_pos, Nat.one_pos, Nat.one_pos⟩)
    (by simp [Instr.op, Instr.fields, Op.instr])

theorem shl (x y : RegIx) : Statement (.shl x y) :=
  of_check (check_of_bounds _ _ ⟨x.isLt, y.isLt, Nat.one_pos, Nat.one_pos, Nat.one_pos⟩)
    (by simp [Instr.op, Instr.fields, Op.instr])

theorem sneReg (x y : RegIx) : Statement (.sneReg x y) :=
  of_check (check_of_bounds _ _ ⟨x.isLt, y.isLt, Nat.one_pos, Nat.one_pos, Nat.one_pos⟩)
    (by simp [Instr.op, Instr.fields, Op.instr])

theorem ldI (nnn : Addr) : Statement (.ldI nnn) :=
  of_check (check_of_bounds _ _ ⟨Nat.one_pos, Nat.one_pos, Nat.one_pos, Nat.one_pos, nnn.isLt⟩)
    (by simp [Instr.op, Instr.fields, Op.instr])

theorem jpV0 (nnn : Addr) : Statement (.jpV0 nnn) :=
  of_check (check_of_bounds _ _ ⟨Nat.one_pos, Nat.one_pos, Nat.one_pos, Nat.one_pos, nnn.isLt⟩)
    (by simp [Instr.op, Instr.fields, Op.instr])

theorem rnd (x : RegIx) (kk : Byte) : Statement (.rnd x kk) :=
  of_check (check_of_bounds _ _ ⟨x.isLt, Nat.one_pos, Nat.one_pos, kk.isLt, Nat.one_pos⟩)
    (by simp [Instr.op, Instr.fields, Op.instr])

theorem drw (x y : RegIx) (n : Nibble) : Statement (.drw x y n) :=
  of_check (check_of_bounds _ _ ⟨x.isLt, y.isLt, n.isLt, Nat.one_pos, Nat.one_pos⟩)
    (by simp [Instr.op, Instr.fields, Op.instr])

theorem skp (x : RegIx) : Statement (.skp x) :=
  of_check (check_of_bounds _ _ ⟨x.isLt, Nat.one_pos, Nat.one_pos, Nat.one_pos, Nat.one_pos⟩)
    (by simp [Instr.op, Instr.fields, Op.instr])

theorem sknp (x : RegIx) : Statement (.sknp x) :=
  of_check (check_of_bounds _ _ ⟨x.isLt, Nat.one_pos, Nat.one_pos, Nat.one_pos, Nat.one_pos⟩)
    (by simp [Instr.op, Instr.fields, Op.instr])

theorem ldVxDt (x : RegIx) : Statement (.ldVxDt x) :=
  of_check (check_of_bounds _ _ ⟨x.isLt, Nat.one_pos, Nat.one_pos, Nat.one_pos, Nat.one_pos⟩)
    (by simp [Instr.op, Instr.fields, Op.instr])

theorem ldVxK (x : RegIx) : Statement (.ldVxK x) :=
  of_check (check_of_bounds _ _ ⟨x.isLt, Nat.one_pos, Nat.one_pos, Nat.one_pos, Nat.one_pos⟩)
    (by simp [Instr.op, Instr.fields, Op.instr])

theorem ldDtVx (x : RegIx) : Statement (.ldDtVx x) :=
  of_check (check_of_bounds _ _ ⟨x.isLt, Nat.one_pos, Nat.one_pos, Nat.one_pos, Nat.one_pos⟩)
    (by simp [Instr.op, Instr.fields, Op.instr])

theorem ldStVx (x : RegIx) : Statement (.ldStVx x) :=
  of_check (check_of_bounds _ _ ⟨x.isLt, Nat.one_pos, Nat.one_pos, Nat.one_pos, Nat.one_pos⟩)
    (by simp [Instr.op, Instr.fields, Op.instr])

theorem addI (x : RegIx) : Statement (.addI x) :=
  of_check (check_of_bounds _ _ ⟨x.isLt, Nat.one_pos, Nat.one_pos, Nat.one_pos, Nat.one_pos⟩)
    (by simp [Instr.op, Instr.fields, Op.instr])

theorem ldF (x : RegIx) : Statement (.ldF x) :=
  of_check (check_of_bounds _ _ ⟨x.isLt, Nat.one_pos, Nat.one_pos, Nat.one_pos, Nat.one_pos⟩)
    (by simp [Instr.op, Instr.fields, Op.instr])

theorem ldB (x : RegIx) : Statement (.ldB x) :=
  of_check (check_of_bounds _ _ ⟨x.isLt, Nat.one_pos, Nat.one_pos, Nat.one_pos, Nat.one_pos⟩)
    (by simp [Instr.op, Instr.fields, Op.instr])

theorem storeRegs (x : RegIx) : Statement (.storeRegs x) :=
  of_check (check_of_bounds _ _ ⟨x.isLt, Nat.one_pos, Nat.one_pos, Nat.one_pos, Nat.one_pos⟩)
    (by simp [Instr.op, Instr.fields, Op.instr])

theorem loadRegs (x : RegIx) : Statement (.loadRegs x) :=
  of_check (check_of_bounds _ _ ⟨x.isLt, Nat.one_pos, Nat.one_pos, Nat.one_pos, Nat.one_pos⟩)
    (by simp [Instr.op, Instr.fields, Op.instr])

end Sys2Proof.Laws.FieldsRebuild
end

