-- ==== Sys2Proof/Laws/Decode.lean ====
section
/-! SUPPORT. The bit fields of a word as numbers, so that encodings are reasoned about by division and remainder: the
fields of a word, and the word of given fields. -/

namespace Sys2Proof

theorem category_eq (op : Word) : category op = op.toNat / 4096 := by
  have := op.isLt
  simp only [category, BitVec.extractLsb'_toNat, Nat.shiftRight_eq_div_pow]
  omega

theorem val_fieldX (op : Word) : (fieldX op).val = op.toNat / 256 % 16 := by
  simp only [fieldX, Fin.val_ofNat, BitVec.extractLsb'_toNat, Nat.shiftRight_eq_div_pow]
  omega

theorem val_fieldY (op : Word) : (fieldY op).val = op.toNat / 16 % 16 := by
  simp only [fieldY, Fin.val_ofNat, BitVec.extractLsb'_toNat, Nat.shiftRight_eq_div_pow]
  omega

theorem toNat_fieldN (op : Word) : (fieldN op).toNat = op.toNat % 16 := by
  simp [fieldN, BitVec.extractLsb'_toNat]

theorem toNat_fieldKk (op : Word) : (fieldKk op).toNat = op.toNat % 256 := by
  simp [fieldKk, BitVec.extractLsb'_toNat]

theorem toNat_fieldNnn (op : Word) : (fieldNnn op).toNat = op.toNat % 4096 := by
  simp [fieldNnn, BitVec.extractLsb'_toNat]

/-- The word of two bytes as a number, the high byte first (20_memory.md R56). -/
theorem toNat_wordOfBytes (hi lo : Byte) : (wordOfBytes hi lo).toNat = hi.toNat * 256 + lo.toNat := by
  simp only [wordOfBytes, BitVec.toNat_append]
  rw [← Nat.shiftLeft_add_eq_or_of_lt lo.isLt, Nat.shiftLeft_eq]

theorem toNat_highByte (op : Word) : (highByte op).toNat = op.toNat / 256 := by
  have := op.isLt
  simp only [highByte, BitVec.extractLsb'_toNat, Nat.shiftRight_eq_div_pow]
  omega

theorem toNat_lowByte (op : Word) : (lowByte op).toNat = op.toNat % 256 := by
  simp [lowByte, BitVec.extractLsb'_toNat]

/-- A word is the word of its two bytes. -/
theorem wordOfBytes_bytes (op : Word) : wordOfBytes (highByte op) (lowByte op) = op := by
  apply BitVec.eq_of_toNat_eq
  rw [toNat_wordOfBytes, toNat_highByte, toNat_lowByte]
  omega

/-- Fields that do not overlap: or is addition. -/
theorem or_eq_add_of_lt (a b k : Nat) (h : b < 2 ^ k) : a * 2 ^ k ||| b = a * 2 ^ k + b := by
  rw [← Nat.shiftLeft_eq, Nat.shiftLeft_add_eq_or_of_lt h]

/-- The check of field values, as bounds. -/
theorem Fields.bounds {fmt : Format} {f : Fields} (h : f.wellFormed fmt = true) :
    f.x < fmt.limits.x ∧ f.y < fmt.limits.y ∧ f.n < fmt.limits.n ∧ f.kk < fmt.limits.kk ∧
      f.nnn < fmt.limits.nnn := by
  simpa [Fields.wellFormed, and_assoc] using h

/-- A row with x and y fields: they lie outside the bits of its match value. -/
theorem match_or_xy : ∀ r : Op, r.format = .xy → ∀ x y : Fin 16,
    r.matchBits.toNat ||| x.val * 256 ||| y.val * 16 = r.matchBits.toNat + x.val * 256 + y.val * 16 := by
  intro r hr
  cases r <;> first | decide +kernel | exact absurd hr (by decide)

/-- A row with an x field only: it lies outside the bits of its match value. -/
theorem match_or_x : ∀ r : Op, r.format = .x → ∀ x : Fin 16,
    r.matchBits.toNat ||| x.val * 256 = r.matchBits.toNat + x.val * 256 := by
  intro r hr
  cases r <;> decide +kernel

/-- The other rows have a match value in the top four bits alone. -/
theorem match_high (r : Op) (h : r.format = .nnn ∨ r.format = .xkk ∨ r.format = .xyn) :
    r.matchBits.toNat = r.matchBits.toNat / 4096 * 4096 := by
  cases r <;> first | rfl | exact absurd h (by decide)

/-- `Encode(row, fields)` as a number: the match value and the fields at their places (30_encoding.md R81, R88). -/
theorem toNat_encodeFields (r : Op) (f : Fields) (h : f.wellFormed r.format = true) :
    (encodeFields r f).toNat = r.matchBits.toNat + f.x * 256 + f.y * 16 + f.n + f.kk + f.nnn := by
  obtain ⟨hx, hy, hn, hkk, hnnn⟩ := Fields.bounds h
  have hm : ∀ k, k < 65536 → k % 65536 = k := fun k hk => Nat.mod_eq_of_lt hk
  cases hf : r.format <;> rw [hf] at hx hy hn hkk hnnn <;> simp only [Format.limits] at hx hy hn hkk hnnn <;>
    simp only [encodeFields, BitVec.toNat_or, BitVec.toNat_ofNat, Nat.shiftLeft_eq]
  · simp [show f.x = 0 by omega, show f.y = 0 by omega, show f.n = 0 by omega, show f.kk = 0 by omega,
      show f.nnn = 0 by omega]
  · have := or_eq_add_of_lt (r.matchBits.toNat / 4096) f.nnn 12 hnnn
    rw [show (2 : Nat) ^ 12 = 4096 by rfl, ← match_high r (by simp [hf])] at this
    simp [show f.x = 0 by omega, show f.y = 0 by omega, show f.n = 0 by omega, show f.kk = 0 by omega,
      hm f.nnn (by omega), this]
  · have h1 := or_eq_add_of_lt (r.matchBits.toNat / 4096) (f.x * 256) 12 (by omega)
    rw [show (2 : Nat) ^ 12 = 4096 by rfl, ← match_high r (by simp [hf])] at h1
    have h2 := or_eq_add_of_lt (r.matchBits.toNat / 4096 * 16 + f.x) f.kk 8 hkk
    rw [show (r.matchBits.toNat / 4096 * 16 + f.x) * 2 ^ 8 = r.matchBits.toNat / 4096 * 4096 + f.x * 256 by omega,
      ← match_high r (by simp [hf])] at h2
    simp [show f.y = 0 by omega, show f.n = 0 by omega, show f.nnn = 0 by omega, hm (f.x * 256) (by omega),
      hm f.kk (by omega), h1, h2]
  · have h1 := match_or_xy r hf ⟨f.x, hx⟩ ⟨f.y, hy⟩
    simp only at h1
    simp [show f.n = 0 by omega, show f.kk = 0 by omega, show f.nnn = 0 by omega, hm (f.x * 256) (by omega),
      hm (f.y * 16) (by omega), h1]
  · have h1 := or_eq_add_of_lt (r.matchBits.toNat / 4096) (f.x * 256) 12 (by omega)
    rw [show (2 : Nat) ^ 12 = 4096 by rfl, ← match_high r (by simp [hf])] at h1
    have h2 := or_eq_add_of_lt (r.matchBits.toNat / 4096 * 16 + f.x) (f.y * 16) 8 (by omega)
    rw [show (r.matchBits.toNat / 4096 * 16 + f.x) * 2 ^ 8 = r.matchBits.toNat / 4096 * 4096 + f.x * 256 by omega,
      ← match_high r (by simp [hf])] at h2
    have h3 := or_eq_add_of_lt (r.matchBits.toNat / 4096 * 256 + f.x * 16 + f.y) f.n 4 hn
    rw [show (r.matchBits.toNat / 4096 * 256 + f.x * 16 + f.y) * 2 ^ 4 =
        r.matchBits.toNat / 4096 * 4096 + f.x * 256 + f.y * 16 by omega, ← match_high r (by simp [hf])] at h3
    simp [show f.kk = 0 by omega, show f.nnn = 0 by omega, hm (f.x * 256) (by omega), hm (f.y * 16) (by omega),
      hm f.n (by omega), h1, h2, h3]
  · have h1 := match_or_x r hf ⟨f.x, hx⟩
    simp only at h1
    simp [show f.y = 0 by omega, show f.n = 0 by omega, show f.kk = 0 by omega, show f.nnn = 0 by omega,
      hm (f.x * 256) (by omega), h1]

end Sys2Proof
end

