-- ==== Sys2Proof/Laws/Draw.lean ====
section
/-! SUPPORT. Drawing a sprite, once: which pixels it covers, and what inverting them does to the display, the collision
and the sink (42_display_ops.md R162). -/

namespace Sys2Proof.Machine

/-- The pixels of one sprite row: those of its eight columns that lie inside the display and under a 1 bit. -/
theorem mem_spriteRow (x0 y : Nat) (b : Byte) (px : Fin 64) (py : Fin 32) :
    (px, py) ∈ spriteRow x0 y b ↔
      x0 ≤ px.val ∧ px.val < x0 + 8 ∧ py.val = y ∧ b.getLsbD (7 - (px.val - x0)) = true := by
  unfold spriteRow
  split_ifs with hy
  · simp only [List.mem_filterMap, List.mem_range, spritePixel]
    constructor
    · rintro ⟨c, hc, h⟩
      split_ifs at h with h1 h2
      simp only [Option.some.injEq, Prod.mk.injEq] at h
      obtain ⟨rfl, rfl⟩ := h
      refine ⟨by simp, by simp; omega, rfl, ?_⟩
      simpa using h2
    · rintro ⟨h1, h2, h3, h4⟩
      refine ⟨px.val - x0, by omega, ?_⟩
      rw [dif_pos (by omega), if_pos h4]
      simp only [Option.some.injEq, Prod.mk.injEq, Fin.ext_iff]
      omega
  · simp only [List.not_mem_nil, false_iff]
    rintro ⟨-, -, h, -⟩
    omega

/-- The pixels a sprite inverts. -/
theorem mem_spritePixels (x0 y0 : Nat) (rows : List Byte) (px : Fin 64) (py : Fin 32) :
    (px, py) ∈ spritePixels x0 y0 rows ↔
      x0 ≤ px.val ∧ px.val < x0 + 8 ∧ y0 ≤ py.val ∧ py.val < y0 + rows.length ∧
        (rows.getD (py.val - y0) 0).getLsbD (7 - (px.val - x0)) = true := by
  induction rows generalizing y0 with
  | nil =>
    simp only [spritePixels, List.not_mem_nil, List.length_nil, false_iff]
    omega
  | cons b rows ih =>
    rw [spritePixels, List.mem_append, mem_spriteRow, ih]
    rcases Nat.lt_trichotomy py.val y0 with h | h | h
    · constructor
      · rintro (⟨-, -, h', -⟩ | ⟨-, -, h', -⟩) <;> omega
      · rintro ⟨-, -, h', -⟩; omega
    · have : py.val - y0 = 0 := by omega
      simp only [this, List.getD_cons_zero, List.length_cons]
      constructor
      · rintro (⟨h1, h2, -, h4⟩ | ⟨-, -, h', -⟩)
        · exact ⟨h1, h2, by omega, by omega, h4⟩
        · omega
      · rintro ⟨h1, h2, -, -, h4⟩
        exact .inl ⟨h1, h2, h, h4⟩
    · have : py.val - y0 = (py.val - (y0 + 1)) + 1 := by omega
      simp only [this, List.getD_cons_succ, List.length_cons]
      constructor
      · rintro (⟨-, -, h', -⟩ | ⟨h1, h2, h3, h4, h5⟩)
        · omega
        · exact ⟨h1, h2, by omega, by omega, h5⟩
      · rintro ⟨h1, h2, h3, h4, h5⟩
        exact .inr ⟨h1, h2, by omega, by omega, h5⟩

theorem nodup_spriteRow (x0 y : Nat) (b : Byte) : (spriteRow x0 y b).Nodup := by
  unfold spriteRow
  split_ifs
  · refine List.Nodup.filterMap (fun c d p hc hd => ?_) List.nodup_range
    simp only [spritePixel, Option.mem_def] at hc hd
    split_ifs at hc hd
    simp only [Option.some.injEq] at hc hd
    rw [← hd] at hc
    simp only [Prod.mk.injEq, Fin.mk.injEq] at hc
    omega
  · exact List.nodup_nil

/-- A sprite inverts no pixel twice. -/
theorem nodup_spritePixels (x0 y0 : Nat) (rows : List Byte) : (spritePixels x0 y0 rows).Nodup := by
  induction rows generalizing y0 with
  | nil => exact List.nodup_nil
  | cons b rows ih =>
    refine List.nodup_append.2 ⟨nodup_spriteRow .., ih _, ?_⟩
    rintro ⟨px, py⟩ h1 ⟨qx, qy⟩ h2 h
    simp only [Prod.mk.injEq] at h
    obtain ⟨rfl, rfl⟩ := h
    rw [mem_spriteRow] at h1
    rw [mem_spritePixels] at h2
    omega

/-- The pixels come row by row, and in a row from left to right. -/
theorem pairwise_spritePixels (x0 y0 : Nat) (rows : List Byte) :
    (spritePixels x0 y0 rows).Pairwise (fun p q => p.2 < q.2 ∨ p.2 = q.2 ∧ p.1 < q.1) := by
  induction rows generalizing y0 with
  | nil => exact List.Pairwise.nil
  | cons b rows ih =>
    refine List.pairwise_append.2 ⟨?_, ih _, ?_⟩
    · unfold spriteRow
      split_ifs with hy
      · refine List.Pairwise.filterMap _ (fun c d hcd p hp q hq => ?_) List.pairwise_lt_range
        simp only [spritePixel] at hp hq
        split_ifs at hp hq
        simp only [Option.some.injEq] at hp hq
        subst hp hq
        exact .inr ⟨rfl, Fin.mk_lt_mk.2 (by omega)⟩
      · exact List.Pairwise.nil
    · rintro ⟨px, py⟩ h1 ⟨qx, qy⟩ h2
      rw [mem_spriteRow] at h1
      rw [mem_spritePixels] at h2
      exact .inl (Fin.lt_def.2 (by simp only; omega))

/-- Drawing distinct pixels: each is inverted, the others stay, the collision is whether one of them was on, and the
sink is called once for each in order (42_display_ops.md R162). -/
theorem foldl_drawPixel_spec (ps : List (Fin 64 × Fin 32)) (h : ps.Nodup) (s : State) (hit : Bool) :
    (∀ px py, Display.get (ps.foldl drawPixel (s, hit)).1.fb px py =
      if (px, py) ∈ ps then !Display.get s.fb px py else Display.get s.fb px py) ∧
    (ps.foldl drawPixel (s, hit)).2 = (hit || ps.any fun p => Display.get s.fb p.1 p.2) ∧
    (ps.foldl drawPixel (s, hit)).1.outputs =
      s.outputs ++ ps.map fun p => .displaySetPixel p.1 p.2 (!Display.get s.fb p.1 p.2) := by
  induction ps generalizing s hit with
  | nil => simp
  | cons p ps ih =>
    obtain ⟨hp, hps⟩ := List.nodup_cons.1 h
    obtain ⟨h1, h2, h3⟩ := ih hps (drawPixel (s, hit) p).1 (drawPixel (s, hit) p).2
    have hget : ∀ q, Display.get (drawPixel (s, hit) p).1.fb q.1 q.2 =
        if q = p then !Display.get s.fb q.1 q.2 else Display.get s.fb q.1 q.2 := by
      intro q
      simp only [drawPixel, dispSet_fb, dispGet, Display.get_set, Prod.ext_iff]
      split_ifs with hq
      · rw [hq.1, hq.2]
      · rfl
    have hsame : ∀ q ∈ ps, Display.get (drawPixel (s, hit) p).1.fb q.1 q.2 = Display.get s.fb q.1 q.2 := by
      intro q hq
      rw [hget, if_neg (by rintro rfl; exact hp hq)]
    rw [List.foldl_cons]
    refine ⟨fun px py => ?_, ?_, ?_⟩
    · have hg := hget (px, py)
      dsimp only at hg
      rw [h1, hg]
      by_cases hq : (px, py) = p
      · have hn : (px, py) ∉ ps := hq ▸ hp
        rw [if_neg hn, if_pos hq, if_pos (List.mem_cons.2 (.inl hq))]
      · simp only [List.mem_cons, hq, false_or, if_false]
    · rw [h2, List.any_cons, ← Bool.or_assoc]
      congr 1
      apply Bool.eq_iff_iff.2
      simp only [List.any_eq_true]
      exact ⟨fun ⟨q, hq, hv⟩ => ⟨q, hq, hsame q hq ▸ hv⟩, fun ⟨q, hq, hv⟩ => ⟨q, hq, (hsame q hq).symm ▸ hv⟩⟩
    · rw [h3, List.map_cons]
      have : (ps.map fun q => Output.displaySetPixel q.1 q.2
          (!Display.get (drawPixel (s, hit) p).1.fb q.1 q.2)) =
          ps.map fun q => .displaySetPixel q.1 q.2 (!Display.get s.fb q.1 q.2) :=
        List.map_congr_left fun q hq => by rw [hsame q hq]
      rw [this]
      simp [drawPixel, dispGet]

end Sys2Proof.Machine
end

