-- ==== Sys2Proof/Laws/Exec.lean ====
section
/-! SUPPORT. What any instruction can do, once: it ends in the halt sequence on the state it began in, or it completes and
keeps what Keeps lists. -/

namespace Sys2Proof.Machine

/-- What every completed instruction leaves alone, and the bounds and relations it keeps. -/
structure Keeps (s t : State) : Prop where
  osc : t.osc = s.osc
  cfg : t.cfg = s.cfg
  program : t.program = s.program
  inputs : t.env.inputs = s.env.inputs
  memWf : s.mem.wf → t.mem.wf
  sp : s.cpu.sp.toNat ≤ 16 → t.cpu.sp.toNat ≤ 16
  stack : s.cpu.pc.toNat + 1 < 4096 → (∀ k : Fin 16, (s.cpu.stack.get k).toNat ≤ 0x1000) →
    ∀ k : Fin 16, (t.cpu.stack.get k).toNat ≤ 0x1000
  pc : s.cpu.pc.toNat + 1 < 4096 → (∀ k : Fin 16, (s.cpu.stack.get k).toNat ≤ 0x1000) → t.cpu.pc.toNat ≤ 0x10FE
  buzzer : (s.buzzing = true ↔ s.cpu.st ≠ 0) → (t.buzzing = true ↔ t.cpu.st ≠ 0)

/-- The next instruction's address, for an instruction that could be fetched. -/
theorem pc_adv {w : Word} (h : w.toNat + 1 < 4096) : (w + 2).toNat ≤ 0x10FE := by
  rw [BitVec.toNat_add]; simp; omega

/-- It is enough to leave Memory, the stack, ST and the Buzzer alone and to keep PC in its range. -/
theorem keeps_plain {s t : State}
    (h : t.osc = s.osc ∧ t.cfg = s.cfg ∧ t.program = s.program ∧ t.env.inputs = s.env.inputs ∧ t.mem = s.mem ∧
      t.cpu.sp = s.cpu.sp ∧ t.cpu.stack = s.cpu.stack ∧ t.buzzing = s.buzzing ∧ t.cpu.st = s.cpu.st)
    (hpc : s.cpu.pc.toNat + 1 < 4096 → t.cpu.pc.toNat ≤ 0x10FE) : Keeps s t := by
  obtain ⟨h1, h2, h3, h4, h5, h6, h7, h8, h9⟩ := h
  exact ⟨h1, h2, h3, h4, by rw [h5]; exact id, by rw [h6]; exact id, by rw [h7]; exact fun _ h => h,
    fun h _ => hpc h, by rw [h8, h9]; exact id⟩

/-- The two ways an instruction that may fault can go on. -/
theorem settle_cases {i : Instr} {s t : State} {x : Attempt State} (h : settle i s x = .next t) :
    x = .done t ∨ ∃ c a, t = haltedState s ⟨c, some (encode i), s.cpu.pc, a⟩ := by
  cases x with
  | done u => simp only [settle_done] at h; cases h; exact .inl rfl
  | raise c a => simp only [settle_raise] at h; cases h; exact .inr ⟨c, a, rfl⟩
  | stop f => simp at h

/-- A skip. -/
theorem skip_keeps (s u : State) (c : Bool)
    (h : u.osc = s.osc ∧ u.cfg = s.cfg ∧ u.program = s.program ∧ u.env.inputs = s.env.inputs ∧ u.mem = s.mem ∧
      u.cpu = s.cpu ∧ u.buzzing = s.buzzing) : Keeps s (skipIf c (advance u)) := by
  obtain ⟨h1, h2, h3, h4, h5, h6, h7⟩ := h
  cases c
  · refine keeps_plain ⟨h1, h2, h3, h4, h5, by simp [skipIf, h6], by simp [skipIf, h6], h7, by simp [skipIf, h6]⟩
      fun hp => ?_
    simp only [skipIf, Bool.false_eq_true, if_false, advance_pc, h6]
    exact pc_adv hp
  · refine keeps_plain ⟨h1, h2, h3, h4, h5, by simp [skipIf, h6], by simp [skipIf, h6], h7, by simp [skipIf, h6]⟩
      fun hp => ?_
    simp only [skipIf, if_true, setPc_pc, advance_pc, h6, BitVec.toNat_add]
    simp
    omega

/-- A write to ST changes nothing but ST, the Buzzer and the outputs. -/
theorem writeSt_other (b : Byte) (s : State) :
    (writeSt b s).cpu = { s.cpu with st := b } ∧ (writeSt b s).osc = s.osc ∧ (writeSt b s).cfg = s.cfg ∧
      (writeSt b s).program = s.program ∧ (writeSt b s).env = s.env ∧ (writeSt b s).mem = s.mem := by
  unfold writeSt
  dsimp only
  split_ifs <;> simp [emit]

/-- What any instruction can do. -/
theorem exec_keeps (i : Instr) (s t : State) (h : exec i s = .next t) :
    Keeps s t ∨ ∃ c a, t = haltedState s ⟨c, some (encode i), s.cpu.pc, a⟩ := by
  cases i
  case ret =>
    refine (settle_cases h).imp_left fun hx => ?_
    unfold pop at hx
    split_ifs at hx with h1 h2 <;> simp at hx
    rw [← hx]
    have hsp : s.cpu.sp.toNat ≠ 0 := fun e => h1 (BitVec.eq_of_toNat_eq e)
    refine ⟨rfl, rfl, rfl, rfl, id, fun hs => ?_, fun _ hk => hk, fun _ hk => ?_, id⟩
    · show (s.cpu.sp - 1).toNat ≤ 16
      rw [BitVec.toNat_sub]; simp; omega
    · have := hk ⟨s.cpu.sp.toNat - 1, h2⟩
      show (s.cpu.stack[s.cpu.sp.toNat - 1]).toNat ≤ _
      simp only [Vector.get_eq_getElem] at this
      omega
  case call nnn =>
    refine (settle_cases h).imp_left fun hx => ?_
    unfold push at hx
    split_ifs at hx with h1 h2 <;> simp at hx
    rw [← hx]
    simp only [advance_sp] at h2
    refine ⟨rfl, rfl, rfl, rfl, id, fun hs => ?_, fun hp hk k => ?_, fun _ hk => ?_, id⟩
    · show (s.cpu.sp + 1).toNat ≤ 16
      rw [BitVec.toNat_add]; simp; omega
    · show ((s.cpu.stack.set s.cpu.sp.toNat (s.cpu.pc + 2) h2).get k).toNat ≤ _
      rw [Vector.get_eq_getElem, Vector.getElem_set]
      split_ifs
      · rw [BitVec.toNat_add]; simp; omega
      · have := hk k; rwa [Vector.get_eq_getElem] at this
    · show (zext16 nnn).toNat ≤ _
      have := nnn.isLt
      simp [zext16]; omega
  case drw x y n =>
    refine (settle_cases h).imp_left fun hx => ?_
    unfold memReadSpan checkSpan at hx
    split_ifs at hx <;> simp only [map_done, map_raise, Attempt.done.injEq, reduceCtorEq] at hx
    rw [← hx, drawPixels, foldl_drawPixel_eq]
    exact keeps_plain ⟨rfl, rfl, rfl, rfl, rfl, rfl, rfl, rfl, rfl⟩ pc_adv
  case ldB x =>
    refine (settle_cases h).imp_left fun hx => ?_
    by_cases hr : s.cpu.i.toNat + 3 ≤ 4096
    · rw [storeDigits, checkSpan_inside (Or.inr hr), bind_done, memWrite_inside (by omega), bind_done,
        memWrite_inside (by omega), bind_done, memWrite_inside (by omega)] at hx
      cases hx
      refine ⟨rfl, rfl, rfl, rfl, fun hw => ?_, id, fun _ hk => hk, fun hp _ => pc_adv hp, id⟩
      exact Memory.wf_set (Memory.wf_set (Memory.wf_set hw (by omega) _) (by omega) _) (by omega) _
    · rw [storeDigits, checkSpan_outside (by omega) (by omega), bind_raise] at hx
      cases hx
  case storeRegs x =>
    refine (settle_cases h).imp_left fun hx => ?_
    have hl := length_regsUpTo x s
    by_cases hr : s.cpu.i.toNat + (regsUpTo x s).length ≤ 4096
    · rw [memWriteRange_inside hr, map_done, blockIndexUpdate_eq] at hx
      cases hx
      exact ⟨rfl, rfl, rfl, rfl, fun hw => Memory.wf_setRange hw _ _ hr, id, fun _ hk => hk,
        fun hp _ => pc_adv hp, id⟩
    · rw [memWriteRange_outside (by intro e; rw [e] at hl; simp at hl) (by omega), map_raise] at hx
      cases hx
  case loadRegs x =>
    refine (settle_cases h).imp_left fun hx => ?_
    by_cases hr : s.cpu.i.toNat + (x.val + 1) ≤ 4096
    · rw [memReadSpan_inside (Or.inr hr), map_done, blockIndexUpdate_eq, setRegsFrom_eq] at hx
      cases hx
      exact keeps_plain ⟨rfl, rfl, rfl, rfl, rfl, rfl, rfl, rfl, rfl⟩ pc_adv
    · rw [memReadSpan_outside (by omega) (by omega), map_raise] at hx
      cases hx
  case ldVxK x =>
    simp only [exec, execLdVxK] at h
    left
    split at h <;> cases h
    · exact keeps_plain ⟨rfl, rfl, rfl, rfl, rfl, rfl, rfl, rfl, rfl⟩ (fun hp => by
        show (s.cpu.pc + 2 - 2).toNat ≤ _
        rw [BitVec.add_sub_cancel]; omega)
    · exact keeps_plain ⟨rfl, rfl, rfl, rfl, rfl, rfl, rfl, rfl, rfl⟩ pc_adv
  case ldStVx x =>
    left
    simp only [exec, execLdStVx] at h; cases h
    obtain ⟨e1, e2, e3, e4, e5, e6⟩ := writeSt_other (reg x s) (advance s)
    refine ⟨e2, e3, e4, by rw [e5]; rfl, by rw [e6]; exact id, by rw [e1]; exact id,
      by rw [e1]; exact fun _ hk => hk, by rw [e1]; exact fun hp _ => pc_adv hp, fun hb => ?_⟩
    rw [e1]; exact buzzing_writeSt _ _ hb
  case jp nnn =>
    left; cases h
    refine keeps_plain ⟨rfl, rfl, rfl, rfl, rfl, rfl, rfl, rfl, rfl⟩ (fun _ => ?_)
    have := nnn.isLt
    show (zext16 nnn).toNat ≤ _
    simp [zext16]; omega
  case jpV0 nnn =>
    left; cases h
    refine keeps_plain ⟨rfl, rfl, rfl, rfl, rfl, rfl, rfl, rfl, rfl⟩ (fun _ => ?_)
    have := nnn.isLt
    have := (reg 0 s).isLt
    show (zext16 nnn + zextByte (reg 0 s)).toNat ≤ _
    simp only [zext16, zextByte, BitVec.toNat_add, BitVec.toNat_setWidth]; omega
  case seImm | sneImm | seReg | sneReg =>
    left; cases h; exact skip_keeps _ _ _ ⟨rfl, rfl, rfl, rfl, rfl, rfl, rfl⟩
  case skp | sknp =>
    left; cases h; exact skip_keeps _ _ _ ⟨rfl, rfl, rfl, rfl, rfl, rfl, rfl⟩
  all_goals
    left; cases h; exact keeps_plain ⟨rfl, rfl, rfl, rfl, rfl, rfl, rfl, rfl, rfl⟩ pc_adv
end Sys2Proof.Machine
end

