-- ==== Sys2Proof/Tests/Slice0.lean ====
section
/-! SUPPORT. Small tests, each named: ill-formed operands are refused, words written out from the opcode map decode to
what they stand for, one Step of each instruction gives what spec/95_test_vectors.md says, and every statement's
hypotheses are met by a concrete state. -/

namespace Sys2Proof.Tests

open Sys2Proof Sys2Proof.Machine

/-! ## The check of operands refuses what no encoding holds (30_encoding.md R81, R82) -/

theorem test_ill_x : Instr.ofFields .ldImm ⟨16, 0, 0, 0, 0⟩ = none := by decide
theorem test_ill_y : Instr.ofFields .addReg ⟨0, 16, 0, 0, 0⟩ = none := by decide
theorem test_ill_n : Instr.ofFields .drw ⟨0, 0, 16, 0, 0⟩ = none := by decide
theorem test_ill_kk : Instr.ofFields .rnd ⟨0, 0, 0, 256, 0⟩ = none := by decide
theorem test_ill_nnn : Instr.ofFields .call ⟨0, 0, 0, 0, 4096⟩ = none := by decide
theorem test_ill_absent_field :
    Instr.ofFields .cls ⟨1, 0, 0, 0, 0⟩ = none ∧ Instr.ofFields .skp ⟨0, 1, 0, 0, 0⟩ = none ∧
    Instr.ofFields .addReg ⟨0, 0, 1, 0, 0⟩ = none ∧ Instr.ofFields .jp ⟨0, 0, 0, 1, 0⟩ = none ∧
    Instr.ofFields .seImm ⟨0, 0, 0, 0, 1⟩ = none := by decide
theorem test_largest_fields :
    Instr.ofFields .drw ⟨15, 15, 15, 0, 0⟩ = some (.drw 15 15 15) ∧
    Instr.ofFields .rnd ⟨15, 0, 0, 255, 0⟩ = some (.rnd 15 0xFF) ∧
    Instr.ofFields .jpV0 ⟨0, 0, 0, 0, 4095⟩ = some (.jpV0 0xFFF) := by decide

/-! ## Decoding: one word or more for every constructor (95_test_vectors.md V-DEC, E8) -/

theorem test_decode_system :
    decodeWord 0b0000000011100000 = some .cls ∧ decodeWord 0b0000000011101110 = some .ret := by decide
theorem test_decode_jumps :
    decodeWord 0b0001000000000000 = some (.jp 0x000) ∧ decodeWord 0b0001111111111111 = some (.jp 0xFFF) ∧
    decodeWord 0b0010101010111100 = some (.call 0xABC) ∧ decodeWord 0b1011111111111111 = some (.jpV0 0xFFF) := by
  decide
theorem test_decode_skips :
    decodeWord 0b0011101001000010 = some (.seImm 0xA 0x42) ∧ decodeWord 0b0100101001000010 = some (.sneImm 0xA 0x42) ∧
    decodeWord 0b0101000100100000 = some (.seReg 1 2) ∧ decodeWord 0b1001000100100000 = some (.sneReg 1 2) ∧
    decodeWord 0b1110000110011110 = some (.skp 1) ∧ decodeWord 0b1110000110100001 = some (.sknp 1) := by decide
theorem test_decode_immediates :
    decodeWord 0b0110111100010010 = some (.ldImm 0xF 0x12) ∧ decodeWord 0b0111000000000001 = some (.addImm 0 0x01) ∧
    decodeWord 0b1010000100100011 = some (.ldI 0x123) ∧ decodeWord 0b1100000011111111 = some (.rnd 0 0xFF) := by decide
theorem test_decode_logic :
    decodeWord 0b1000000100100000 = some (.ldReg 1 2) ∧ decodeWord 0b1000000100100001 = some (.orReg 1 2) ∧
    decodeWord 0b1000000100100010 = some (.andReg 1 2) ∧ decodeWord 0b1000000100100011 = some (.xorReg 1 2) := by decide
theorem test_decode_arithmetic :
    decodeWord 0b1000000100100100 = some (.addReg 1 2) ∧ decodeWord 0b1000000100100101 = some (.subReg 1 2) ∧
    decodeWord 0b1000000100100110 = some (.shr 1 2) ∧ decodeWord 0b1000000100100111 = some (.subnReg 1 2) ∧
    decodeWord 0b1000000100101110 = some (.shl 1 2) := by decide
theorem test_decode_draw : decodeWord 0b1101000100100011 = some (.drw 1 2 3) := by decide
theorem test_decode_f :
    decodeWord 0b1111000100000111 = some (.ldVxDt 1) ∧ decodeWord 0b1111000100001010 = some (.ldVxK 1) ∧
    decodeWord 0b1111000100010101 = some (.ldDtVx 1) ∧ decodeWord 0b1111000100011000 = some (.ldStVx 1) ∧
    decodeWord 0b1111000100011110 = some (.addI 1) ∧ decodeWord 0b1111000100101001 = some (.ldF 1) ∧
    decodeWord 0b1111000100110011 = some (.ldB 1) ∧ decodeWord 0b1111000101010101 = some (.storeRegs 1) ∧
    decodeWord 0b1111000101100101 = some (.loadRegs 1) := by decide
theorem test_decode_none_05 :
    ([0x00E1, 0x00EF, 0x0000, 0x0123, 0x0FFF, 0x5121, 0x512F].map decodeWord).all Option.isNone = true := by decide
theorem test_decode_none_89 :
    ([0x8128, 0x8129, 0x812A, 0x812B, 0x812C, 0x812D, 0x812F, 0x9121].map decodeWord).all Option.isNone = true := by
  decide
theorem test_decode_none_ef :
    ([0xE19F, 0xE100, 0xE1FF, 0xF100, 0xF108, 0xF175, 0xF185, 0xF1FF, 0xFFFF].map decodeWord).all Option.isNone =
      true := by decide
theorem test_encode_samples :
    encode (.addReg 0xA 0xB) = 0x8AB4 ∧ encode (.shr 1 2) = 0x8126 ∧ encode (.drw 1 2 3) = 0xD123 := by decide
theorem test_bytes_high_first : decodeBytes [0x12, 0x34, 0x56] = some (.jp 0x234, [0x56]) := by decide
theorem test_table_word :
    decodeTableWord 16 0xD123 = some (.drw 1 2 3) ∧ decodeTableWord 16 0xFFFF = none := by decide
theorem test_rows_of_the_table : Op.all.length = 34 ∧ Op.all.Nodup := by decide

/-! ## One Step of each instruction -/

/-- A machine with PC, I, some registers and some memory bytes, otherwise as after reset. -/
def machine (pc i : Word) (v : List (RegIx × Byte)) (start : Nat := 0) (bytes : List Byte := []) : State :=
  let s := v.foldl (fun s p => setReg p.1 p.2 s) State.reset
  { s with cpu := { s.cpu with pc := pc, i := i }, mem := s.mem.setRange start bytes }

/-- The state an outcome continues in. -/
def nextState : Result → Option State
  | .next t => some t
  | _ => none

/-- The state after the instruction a word decodes to. -/
def run (op : Word) (s : State) : Option State := (decodeWord op).bind fun i => nextState (exec i s)

/-- Two registers after an instruction. -/
def regs (op : Word) (s : State) (x y : RegIx) : Option (Byte × Byte) := (run op s).map fun t => (reg x t, reg y t)

/-- PC after an instruction. -/
def pcAfter (op : Word) (s : State) : Option Word := (run op s).map fun t => t.cpu.pc

/-- A machine with registers only. -/
def ofRegs (v : List (RegIx × Byte)) : State := machine 0x200 0 v

theorem test_ldImm : regs 0x6F12 (ofRegs []) 15 0 = some (0x12, 0) := by decide
theorem test_addImm_no_carry : regs 0x7001 (ofRegs [(0, 0xFF)]) 0 15 = some (0x00, 0x00) := by decide
theorem test_ldReg : regs 0x8AB0 (ofRegs [(11, 0x33)]) 10 11 = some (0x33, 0x33) := by decide
theorem test_orReg_keeps_vf : regs 0x8011 (ofRegs [(0, 0x0F), (1, 0xF0), (15, 1)]) 0 15 = some (0xFF, 1) := by decide
theorem test_andReg : regs 0x8012 (ofRegs [(0, 0x0F), (1, 0xF0)]) 0 1 = some (0x00, 0xF0) := by decide
theorem test_xorReg_self : regs 0x8003 (ofRegs [(0, 0x5A)]) 0 15 = some (0, 0) := by decide
theorem test_addReg_carry : regs 0x8014 (ofRegs [(0, 0xFF), (1, 0x01)]) 0 15 = some (0, 1) := by decide
theorem test_addReg_flag_wins : regs 0x8F14 (ofRegs [(15, 0xFF), (1, 0x02)]) 15 1 = some (1, 2) := by decide
theorem test_subReg_equal : regs 0x8015 (ofRegs [(0, 5), (1, 5)]) 0 15 = some (0, 1) := by decide
theorem test_subReg_borrow : regs 0x8015 (ofRegs [(0, 0), (1, 1)]) 0 15 = some (0xFF, 0) := by decide
theorem test_shr : regs 0x8106 (ofRegs [(1, 0xFF)]) 1 15 = some (0x7F, 1) := by decide
theorem test_shr_ignores_y : regs 0x8126 (ofRegs [(1, 4), (2, 0xAA)]) 1 2 = some (2, 0xAA) := by decide
theorem test_subnReg : regs 0x8017 (ofRegs [(0, 1), (1, 0)]) 0 15 = some (0xFF, 0) := by decide
theorem test_shl : regs 0x810E (ofRegs [(1, 0xC0)]) 1 15 = some (0x80, 1) := by decide
theorem test_ldI : (run 0xAFFF (ofRegs [])).map (·.cpu.i) = some 0x0FFF := by decide

theorem test_storeRegs :
    (run 0xF055 (machine 0x200 0x0FFF [(0, 0x9C)])).map (fun t => (t.mem.get 0xFFF, t.cpu.i, t.outputs)) =
      some (0x9C, 0x0FFF, [.memoryRangeModified 0xFFF 0xFFF]) := by decide
theorem test_storeRegs_outside :
    (run 0xFF55 (machine 0x200 0x0FF1 [])).map (fun t => (t.osc.fault, t.cpu.pc, t.mem.cells)) =
      some (some ⟨.outOfRange, some 0xFF55, 0x200, some 0x1000⟩, 0x200, []) := by decide
theorem test_loadRegs :
    regs 0xF165 (machine 0x200 0x300 [] 0x300 [0xAA, 0xBB, 0xCC]) 0 1 = some (0xAA, 0xBB) := by decide
theorem test_loadRegs_moves_i :
    (run 0xFF65 { machine 0x200 0x300 [] with cfg := { Configuration.initial with modifyI := true } }).map (·.cpu.i) =
      some 0x0310 := by decide

theorem test_jp : pcAfter 0x1FFF (ofRegs []) = some 0x0FFF := by decide
theorem test_jpV0 : pcAfter 0xBFFF (ofRegs [(0, 0xFF)]) = some 0x10FE := by decide
theorem test_call :
    (run 0x2300 (ofRegs [])).map (fun t => (t.cpu.pc, t.cpu.sp, t.cpu.stack.get 0)) = some (0x300, 1, 0x202) := by
  decide
theorem test_ret_empty :
    (run 0x00EE (machine 0x300 0 [])).map (fun t => (t.cpu.pc, t.osc.fault)) =
      some (0x300, some ⟨.stackUnderflow, some 0x00EE, 0x300, none⟩) := by decide
theorem test_call_ret :
    ((run 0x2300 (ofRegs [])).bind (run 0x00EE)).map (fun t => (t.cpu.pc, t.cpu.sp, t.cpu.stack.get 0)) =
      some (0x202, 0, 0x202) := by decide
theorem test_seImm : pcAfter 0x3142 (ofRegs [(1, 0x42)]) = some 0x204 := by decide
theorem test_sneImm : pcAfter 0x4142 (ofRegs [(1, 0x42)]) = some 0x202 := by decide
theorem test_seReg : pcAfter 0x5120 (ofRegs [(1, 7), (2, 8)]) = some 0x202 := by decide
theorem test_sneReg : pcAfter 0x9120 (ofRegs [(1, 7), (2, 8)]) = some 0x204 := by decide

theorem test_cls :
    (run 0x00E0 { ofRegs [] with fb := Display.set Display.blank 63 31 true }).map
      (fun t => (Display.get t.fb 63 31, t.outputs)) = some (false, [.displayClear]) := by decide +kernel
theorem test_drw_clips :
    (run 0xD011 (machine 0x200 0x300 [(0, 62), (15, 1)] 0x300 [0xFF])).map (fun t => (reg 15 t, t.outputs)) =
      some (0, [.displaySetPixel 62 0 true, .displaySetPixel 63 0 true]) := by decide +kernel
theorem test_drw_collides :
    (run 0xD011 { machine 0x200 0x300 [] 0x300 [0x80] with fb := Display.set Display.blank 0 0 true }).map
      (fun t => (reg 15 t, Display.get t.fb 0 0, t.cpu.pc)) = some (1, false, 0x202) := by decide +kernel

theorem test_ldVxDt :
    regs 0xF107 (let s := ofRegs []; { s with cpu := { s.cpu with dt := 0x2A } }) 1 0 = some (0x2A, 0) := by decide
theorem test_ldDtVx : (run 0xF015 (ofRegs [(0, 0x3C)])).map (·.cpu.dt) = some 0x3C := by decide
theorem test_ldStVx_plays :
    (run 0xF218 (ofRegs [(2, 5)])).map (fun t => (t.cpu.st, t.buzzing, t.outputs)) =
      some (5, true, [.buzzerPlay]) := by decide
theorem test_ldStVx_stops :
    (run 0xF218 (let s := ofRegs []; { s with cpu := { s.cpu with st := 2 }, buzzing := true })).map
      (fun t => (t.cpu.st, t.buzzing, t.outputs)) = some (0, false, [.buzzerStop]) := by decide

/-- A machine whose environment has levels for `keys` in store. -/
def withKeys (levels : List Word) (s : State) : State := { s with env := { s.env with keyLevels := levels } }

theorem test_skp_low_nibble : pcAfter 0xE19E (withKeys [0x0020] (machine 0x210 0 [(1, 0xF5)])) = some 0x214 := by decide
theorem test_sknp : pcAfter 0xE1A1 (withKeys [0x0020] (machine 0x210 0 [(1, 5)])) = some 0x212 := by decide
theorem test_ldVxK_waits :
    (run 0xF30A (withKeys [0] (machine 0x220 0 [(3, 0x77)]))).map (fun t => (t.cpu.pc, reg 3 t, t.env.keySamples)) =
      some (0x220, 0x77, 1) := by decide
theorem test_ldVxK_lowest :
    (run 0xF30A (withKeys [0x0180] (machine 0x220 0 []))).map (fun t => (t.cpu.pc, reg 3 t)) = some (0x222, 7) := by
  decide

theorem test_addI_wraps : (run 0xF11E (machine 0x200 0xFFFF [(1, 2)])).map (·.cpu.i) = some 0x0001 := by decide
theorem test_ldF : (run 0xF029 (ofRegs [(0, 0x1A)])).map (·.cpu.i) = some 0x0032 := by decide
theorem test_rnd :
    regs 0xC30F (let s := ofRegs []; { s with env := { s.env with randDraws := [0xA7] } }) 3 15 = some (7, 0) := by decide
theorem test_ldB :
    (run 0xF033 (machine 0x200 0x300 [(0, 0xFF)])).map (fun t => t.outputs) =
      some [.memoryModified 0x300 0 2, .memoryModified 0x301 0 5, .memoryModified 0x302 0 5] := by decide
theorem test_ldB_top :
    (run 0xF033 (machine 0x200 0x0FFD [(0, 123)])).map (fun t => (t.mem.get 0xFFD, t.mem.get 0xFFE, t.mem.get 0xFFF)) =
      some (1, 2, 3) := by decide

/-! ## The Oscillator, the resets and loading -/

/-- The state one step leads to. -/
def next (s : State) : Option State := nextState (step s)

/-- A machine with inputs in store. -/
def withInputs (is : List Input) (s : State) : State := { s with env := { s.env with inputs := is } }

/-- A machine that is Running in a tick with `k` Steps left, the bytes at 0x200. -/
def running (k : Nat) (bytes : List Byte) : State :=
  let s := machine 0x200 0 [] 0x200 bytes
  { s with osc := { s.osc with runState := .running, tickArmed := true, stepsLeft := k } }

theorem test_illegal_word_halts :
    (next (running 2 [0xFF, 0xFF])).map (fun t => (t.osc, t.cpu.pc, t.outputs)) =
      some (⟨.halted, true, 0, 0, some ⟨.unknownOpcode, some 0xFFFF, 0x200, none⟩, 0⟩, 0x200,
        [.emulationHalted ⟨.unknownOpcode, some 0xFFFF, 0x200, none⟩ 0x200]) := by decide
theorem test_batch_and_carry :
    (next (withInputs [.tick] { running 0 [] with cfg := { Configuration.initial with speedHz := 500 } })).map
      (fun t => (t.osc.stepsLeft, t.osc.acc, t.osc.elapsedTicks)) = some (8, 20, 1) := by decide
theorem test_one_step_is_forced :
    (next (withInputs [.tick] { running 0 [] with cfg := { Configuration.initial with speedHz := 30 } })).map
      (fun t => (t.osc.stepsLeft, t.osc.acc)) = some (1, 30) := by decide
theorem test_decay_after_the_batch :
    (next (let s := running 1 [0x12, 0x00]
           { s with cpu := { s.cpu with dt := 150, st := 1 }, buzzing := true })).map
      (fun t => (t.cpu.dt, t.cpu.st, t.buzzing, t.outputs)) = some (149, 0, false, [.buzzerStop]) := by decide
theorem test_monostable :
    (next { running 1 [0x12, 0x00] with cfg := { Configuration.initial with mode := .monostable } }).map
      (fun t => (t.osc.runState, t.osc.tickArmed, t.outputs)) = some (.stopped, false, [.cycleStepped]) := by decide
theorem test_warm_reset :
    (next (withInputs [.restart] { machine 0x206 0x300 [(0, 2)] 0x300 [2, 5, 4] with program := some [0x12, 0x00] })).map
      (fun t => (t.mem.cells, t.cpu, t.outputs)) =
      some ([(0x200, 0x12), (0x300, 2), (0x301, 5), (0x302, 4)], Processor.initial,
        [.memoryRangeModified 0x200 0x201]) := by decide +kernel
theorem test_cold_reset :
    (next (withInputs [.powerCycle] { machine 0x206 0x300 [(0, 2)] 0x300 [2, 5, 4] with program := some [0x12, 0x00] })).map
      (fun t => (t.mem.cells, t.outputs)) =
      some ([(0x200, 0x12)], [.memoryRangeModified 0 0xFFF, .memoryRangeModified 0x200 0x201]) := by decide
theorem test_font_is_eighty_bytes : Config.digitFont.length = 80 := by decide
theorem test_font_digit_address :
    (construct { Configuration.initial with fontImage := Config.digitFont }).mem.get 0x4B = 0xF0 := by decide +kernel
theorem test_reset_is_a_construction : State.reset = construct Configuration.initial := by rfl
theorem test_fetch_word_runs :
    (next (State.reset.withFetchWord 16 0x6F12)).map (fun t => (reg 15 t, t.cpu.pc, t.osc.stepsLeft)) =
      some (0x12, 0x202, 1) := by decide

/-! ## Witnesses: states and operands that meet the hypotheses of each statement

One theorem for each statement with hypotheses, named after it; where a statement has several clauses, each clause at a
boundary value. -/

theorem wit_DecodeAndEncodeRoundTrip :
    decodeWord 0x8126 = some (.shr 1 2) ∧ Fields.wellFormed Op.rnd.format ⟨15, 0, 0, 255, 0⟩ = true ∧
    Fields.wellFormed Op.drw.format ⟨15, 15, 15, 0, 0⟩ = true ∧
    Fields.wellFormed Op.ldI.format ⟨0, 0, 0, 0, 4095⟩ = true := by decide

theorem wit_CatalogMatchesAtMostOneRow :
    Op.matches .shr 0x8126 = true ∧ decodeWord 0x8126 = some (.shr 1 2) ∧ decodeWord 0x8128 = none ∧
    Op.all.all (fun r => !r.matches 0x8128) = true := by decide

theorem wit_IllegalWords :
    decodeWord 0x0FFF = none ∧ decodeWord 0x512F = none ∧ decodeWord 0x812F = none ∧ decodeWord 0x9121 = none ∧
    decodeWord 0xE1A0 = none ∧ decodeWord 0xF166 = none := by decide

/-- A machine Running in a tick at `pc`, with two bytes stored there. -/
def tickAt (k : Nat) (pc : Word) (op : Word) : State :=
  let s := machine pc 0 [] pc.toNat [highByte op, lowByte op]
  { s with osc := { s.osc with runState := .running, tickArmed := true, stepsLeft := k } }

theorem wit_StepRunsTheDecodedInstruction :
    inTick (tickAt 1 0xFFE 0x6F12) ∧ fetches (tickAt 1 0xFFE 0x6F12) 0x6F12 ∧
    decodeWord 0x6F12 = some (.ldImm 15 0x12) :=
  ⟨by unfold inTick; decide, by unfold fetches; decide, by decide⟩

theorem wit_BatchGoesOnStepByStep :
    ∃ t, (tickAt 2 0xFFE 0x6F12).osc.stepsLeft = 0 + 2 ∧ fetches (tickAt 2 0xFFE 0x6F12) 0x6F12 ∧
      exec (.ldImm 15 0x12) (tickAt 2 0xFFE 0x6F12) = .next t ∧ t.osc = (tickAt 2 0xFFE 0x6F12).osc :=
  ⟨_, rfl, by unfold fetches; decide, rfl, rfl⟩

theorem wit_FetchOutOfRangeHalts :
    inTick (tickAt 1 0xFFF 0) ∧ 0xFFF ≤ (tickAt 1 0xFFF 0).cpu.pc.toNat ∧ inTick (tickAt 1 0x1000 0) ∧
    0xFFF ≤ (tickAt 1 0x1000 0).cpu.pc.toNat :=
  ⟨by unfold inTick; decide, by decide, by unfold inTick; decide, by decide⟩

theorem wit_UnknownOpcodeHalts :
    inTick (tickAt 1 0xFFE 0xFFFF) ∧ fetches (tickAt 1 0xFFE 0xFFFF) 0xFFFF ∧ decodeWord 0xFFFF = none :=
  ⟨by unfold inTick; decide, by unfold fetches; decide, by decide⟩

theorem wit_FaultingStepCommitsNothing :
    ∃ t u, inTick (tickAt 1 0x200 0x00EE) ∧ (tickAt 1 0x200 0x00EE).osc.runState ≠ .halted ∧
      step (tickAt 1 0x200 0x00EE) = .next t ∧ t.osc.runState = .halted ∧ fetches (tickAt 1 0x200 0x00EE) 0x00EE ∧
      inTick (tickAt 1 0xFFF 0) ∧ step (tickAt 1 0xFFF 0) = .next u ∧ u.osc.runState = .halted ∧
      0xFFF ≤ (tickAt 1 0xFFF 0).cpu.pc.toNat :=
  ⟨_, _, by unfold inTick; decide, by decide, rfl, rfl, by unfold fetches; decide, by unfold inTick; decide, rfl, rfl,
    by decide⟩

theorem wit_OnlySixInstructionsCanFault :
    Instr.op .cls ∉ [Op.call, .ret, .drw, .ldB, .storeRegs, .loadRegs] := by decide

/-- Each clause of the table of R38 has an instruction that does write that state. -/
theorem wit_InstructionsWriteOnlyTheirState :
    (run 0x6F12 State.reset).map (·.cpu.v) ≠ some State.reset.cpu.v ∧
    (run 0xAFFF State.reset).map (·.cpu.i) ≠ some State.reset.cpu.i ∧
    (run 0x2300 State.reset).map (·.cpu.sp) ≠ some State.reset.cpu.sp ∧
    (run 0x2300 State.reset).map (·.cpu.stack) ≠ some State.reset.cpu.stack ∧
    (run 0xF015 (ofRegs [(0, 1)])).map (·.cpu.dt) ≠ some (ofRegs [(0, 1)]).cpu.dt ∧
    (run 0xF018 (ofRegs [(0, 1)])).map (·.cpu.st) ≠ some (ofRegs [(0, 1)]).cpu.st ∧
    (run 0xF055 (ofRegs [(0, 1)])).map (·.mem.get 0) ≠ some ((ofRegs [(0, 1)]).mem.get 0) ∧
    (run 0xD001 (machine 0x200 0x300 [] 0x300 [0xFF])).map (fun t => Display.get t.fb 0 0) ≠ some false ∧
    (run 0xE09E (withKeys [1] State.reset)).map (·.env.keySamples) ≠ some 0 ∧
    (run 0xC000 State.reset).map (·.env.randCount) ≠ some 0 := by decide +kernel

theorem wit_BlockStoreAndLoad :
    (machine 0x200 0x0FF0 []).cpu.i.toNat + (15 : RegIx).val = 4095 ∧
    (machine 0x200 0x0FF1 []).cpu.i.toNat + (15 : RegIx).val = 4096 ∧
    (machine 0x200 0xFFFF []).cpu.i.toNat + (0 : RegIx).val = 65535 := by decide

/-- A machine with `n` stack entries in use. -/
def withSp (n : BitVec 8) : State := let s := ofRegs []; { s with cpu := { s.cpu with sp := n } }

theorem wit_CallPushesTheReturnAddress :
    (withSp 0).cpu.sp.toNat = (0 : Fin 16).val ∧ (withSp 15).cpu.sp.toNat = (15 : Fin 16).val ∧
    (withSp 16).cpu.sp = 16 := by decide

theorem wit_ReturnPopsThePC :
    (withSp 1).cpu.sp.toNat = (0 : Fin 16).val + 1 ∧ (withSp 16).cpu.sp.toNat = (15 : Fin 16).val + 1 ∧
    (withSp 0).cpu.sp = 0 := by decide

theorem wit_ReturnResumesAfterTheCall :
    ∃ t, (withSp 15).cpu.sp.toNat < 16 ∧ exec (.call 0x300) (withSp 15) = .next t := ⟨_, by decide, rfl⟩

theorem wit_DrawInvertsTheCoveredPixels :
    (machine 0x200 0x0FFE []).cpu.i.toNat + (2 : Nibble).toNat ≤ 4096 ∧
    ((3 : Nibble) ≠ 0 ∧ 4096 < (machine 0x200 0x0FFE []).cpu.i.toNat + (3 : Nibble).toNat) ∧
    covers (machine 0x200 0x300 [] 0x300 [0x01]) 0 0 1 0x300 7 0 ∧
    ¬ covers (machine 0x200 0x300 [] 0x300 [0x01]) 0 0 1 0x300 6 0 := by
  unfold covers; decide +kernel

theorem wit_DrawTwiceRestoresTheDisplay :
    ∃ t, (0 : RegIx) ≠ 15 ∧ (machine 0x200 0x0FFF [] 0xFFF [0x80]).cpu.i.toNat + (1 : Nibble).toNat ≤ 4096 ∧
      exec (.drw 0 0 1) (machine 0x200 0x0FFF [] 0xFFF [0x80]) = .next t := ⟨_, by decide, by decide, rfl⟩

theorem wit_SoundTimerWriteDrivesTheBuzzer :
    ((ofRegs [(2, 5)]).cpu.st = 0 ∧ (ofRegs [(2, 5)]).cpu.v.get 2 ≠ 0) ∧
    ((ofRegs []).cpu.st = 0 ↔ (ofRegs []).cpu.v.get 2 = 0) ∧
    (let s := { ofRegs [] with cpu := { (ofRegs []).cpu with st := 2 } }; s.cpu.st ≠ 0 ∧ s.cpu.v.get 2 = 0) := by
  decide

theorem wit_KeySkipsTestOneKey :
    samplesKeys (withKeys [0x8000, 1] (ofRegs [])) 0x8000 [1] ∧
    samplesKeys State.reset (Config.keyLevel 0) [] :=
  ⟨.inl rfl, .inr ⟨rfl, rfl, rfl⟩⟩

theorem wit_WaitForKeyTakesTheLowestKey :
    samplesKeys (withKeys [0] (ofRegs [])) 0 [] ∧ samplesKeys (withKeys [0x8000] (ofRegs [])) 0x8000 [] ∧
    (0x8000 : Word).getLsbD 15 = true ∧ (∀ j, j < 15 → (0x8000 : Word).getLsbD j = false) ∧
    (0x8001 : Word).getLsbD 0 = true :=
  ⟨.inl rfl, .inl rfl, by decide, by decide, by decide⟩

theorem wit_RandomByteIsMasked :
    drawsRand { State.reset with env := { State.reset.env with randDraws := [0xA7] } } 0xA7 [] ∧
    drawsRand State.reset (Config.randByte 0) [] :=
  ⟨.inl rfl, .inr ⟨rfl, rfl, rfl⟩⟩

theorem wit_BcdStoresThreeDigits :
    (machine 0x200 0x0FFD []).cpu.i.toNat + 2 = 4095 ∧ (machine 0x200 0x0FFE []).cpu.i.toNat + 2 = 4096 := by decide

theorem wit_StoredWordIsFetchedNext :
    ∃ t, (machine 0x206 0x208 [(0, 0x6B), (1, 0x07)]).cpu.i.toNat + (1 : RegIx).val < 4096 ∧
      exec (.storeRegs 1) (machine 0x206 0x208 [(0, 0x6B), (1, 0x07)]) = .next t ∧
      (1 : RegIx).val = (0 : RegIx).val + 1 ∧
      t.cpu.pc.toNat = (machine 0x206 0x208 [(0, 0x6B), (1, 0x07)]).cpu.i.toNat + (0 : RegIx).val :=
  ⟨_, by decide, rfl, by decide, by decide⟩

/-- A Running machine between ticks with one input in store. -/
def between (i : Input) (c : Configuration) : State := withInputs [i] { running 0 [] with cfg := c }

theorem wit_TickPulseStartsABatch :
    nextInput (withInputs [.tick] State.reset) .tick [] ∧ (withInputs [.tick] State.reset).osc.tickArmed = false ∧
    nextInput (between .tick Configuration.initial) .tick [] ∧
    (between .tick Configuration.initial).osc.tickArmed = true ∧
    (between .tick Configuration.initial).osc.runState = .running ∧
    (between .tick Configuration.initial).cfg.mode = .astable ∧
    0 < (between .tick Configuration.initial).cfg.tickHz ∧
    (between .tick { Configuration.initial with mode := .monostable }).cfg.mode = .monostable ∧
    60 ≤ (between .tick { Configuration.initial with speedHz := 60 }).osc.acc + 60 :=
  ⟨⟨rfl, rfl⟩, rfl, ⟨rfl, rfl⟩, rfl, rfl, rfl, by decide, rfl, by decide⟩

/-- A Halted machine between ticks, its ticks still armed. -/
def halted : State :=
  let s := ofRegs []
  { s with osc := { s.osc with
      runState := .halted
      tickArmed := true
      fault := some ⟨.unknownOpcode, some 0xFFFF, 0x200, none⟩ } }

theorem wit_TickWhileHalted :
    nextInput (withInputs [.tick] halted) .tick [] ∧ halted.osc.tickArmed = true ∧ halted.osc.runState ≠ .running :=
  ⟨⟨rfl, rfl⟩, rfl, by decide⟩

theorem wit_BatchesDoNotDrift :
    ∃ acc : Nat → Nat, 60 ≤ 500 ∧ acc 0 < 60 ∧ ∀ k, acc (k + 1) = (acc k + 500) % 60 :=
  ⟨fun k => 500 * k % 60, by decide, by decide, fun k => by show 500 * (k + 1) % 60 = (500 * k % 60 + 500) % 60; omega⟩

theorem wit_AstableTickEndsWithDecay :
    ∃ t, (tickAt 1 0x200 0x1200).osc.stepsLeft = 1 ∧ (tickAt 1 0x200 0x1200).cfg.mode = .astable ∧
      fetches (tickAt 1 0x200 0x1200) 0x1200 ∧ decodeWord 0x1200 = some (.jp 0x200) ∧
      exec (.jp 0x200) (tickAt 1 0x200 0x1200) = .next t ∧ t.osc = (tickAt 1 0x200 0x1200).osc :=
  ⟨_, rfl, rfl, by unfold fetches; decide, by decide, rfl, rfl⟩

/-- The same tick in Monostable mode. -/
def monostableTick : State := { tickAt 1 0x200 0x1200 with cfg := { Configuration.initial with mode := .monostable } }

theorem wit_MonostableTickStopsAfterOneStep :
    ∃ t, monostableTick.osc.stepsLeft = 1 ∧ monostableTick.cfg.mode = .monostable ∧ fetches monostableTick 0x1200 ∧
      decodeWord 0x1200 = some (.jp 0x200) ∧ exec (.jp 0x200) monostableTick = .next t ∧ t.osc = monostableTick.osc :=
  ⟨_, rfl, rfl, by unfold fetches; decide, by decide, rfl, rfl⟩

theorem wit_StartAndStopSetTheRunState :
    nextInput (withInputs [.start] halted) .start [] ∧ nextInput (between .stop Configuration.initial) .stop [] ∧
    (between .stop Configuration.initial).osc.runState = .running ∧ nextInput (withInputs [.stop] halted) .stop [] ∧
    halted.osc.runState ≠ .running :=
  ⟨⟨rfl, rfl⟩, ⟨rfl, rfl⟩, rfl, ⟨rfl, rfl⟩, by decide⟩

theorem wit_SettingsWriteOneRegister (b : Bool) (m : Mode) (hz : Nat) (f : OptionFlag) :
    nextInput (withInputs [.setSpeed hz] State.reset) (.setSpeed hz) [] ∧
    nextInput (withInputs [.setMode m] State.reset) (.setMode m) [] ∧
    nextInput (withInputs [.setOptionFlag f b] State.reset) (.setOptionFlag f b) [] ∧
    nextInput (withInputs [.getOptionFlag f] State.reset) (.getOptionFlag f) [] :=
  ⟨⟨rfl, rfl⟩, ⟨rfl, rfl⟩, ⟨rfl, rfl⟩, ⟨rfl, rfl⟩⟩

theorem wit_HaltedIsLeftOnlyByStartOrReset :
    ∃ t, (withInputs [.tick] halted).osc.runState = .halted ∧ (withInputs [.tick] halted).osc.stepsLeft = 0 ∧
      step (withInputs [.tick] halted) = .next t ∧ (∀ rest, (withInputs [.tick] halted).env.inputs ≠ .start :: rest) ∧
      (∀ rest, (withInputs [.tick] halted).env.inputs ≠ .powerCycle :: rest) ∧
      (∀ rest, (withInputs [.tick] halted).env.inputs ≠ .restart :: rest) ∧
      (∀ image rest, (withInputs [.tick] halted).env.inputs ≠ .loadProgram image :: rest) :=
  ⟨_, rfl, rfl, rfl, by simp [withInputs], by simp [withInputs], by simp [withInputs], by simp [withInputs]⟩

/-- A machine with a font image that ends right below the program, the largest stored program, and one input in store. -/
def full (i : Input) : State :=
  withInputs [i]
    { State.reset with
      cfg := { Configuration.initial with fontBase := 0x100, fontImage := List.replicate 0x100 0xFF }
      program := some (List.replicate 3584 0xAA) }

theorem wit_PowerCycleResetsEverything :
    nextInput (full .powerCycle) .powerCycle [] ∧ (full .powerCycle).cfg.fontImage.length = 0x100 ∧
    (full .powerCycle).cfg.fontBase.toNat = 0x100 ∧
    ((full .powerCycle).program.getD []).length = 3584 ∧
    nextInput (withInputs [.powerCycle] State.reset) .powerCycle [] ∧ (State.reset.program.getD []).length = 0 :=
  ⟨⟨rfl, rfl⟩, List.length_replicate, rfl, List.length_replicate, ⟨rfl, rfl⟩, rfl⟩

theorem wit_RestartPreservesOtherMemory :
    nextInput (full .restart) .restart [] ∧ ((full .restart).program.getD []).length = 3584 :=
  ⟨⟨rfl, rfl⟩, List.length_replicate⟩

theorem wit_LoadProgramStoresOrRejects (n : Nat) :
    nextInput (withInputs [.loadProgram (List.replicate n 0xAA)] State.reset)
      (.loadProgram (List.replicate n 0xAA)) [] ∧
    (List.replicate 3584 (0xAA : Byte)).length = 3584 ∧ 3584 < (List.replicate 3585 (0xAA : Byte)).length :=
  ⟨⟨rfl, rfl⟩, List.length_replicate, by rw [List.length_replicate]; decide⟩

theorem wit_ConstructionLeavesTheResetState :
    (full .tick).cfg.fontBase.toNat = 0x100 ∧ (full .tick).cfg.fontImage.length = 0x100 :=
  ⟨rfl, List.length_replicate⟩

theorem inv_running : Inv (tickAt 1 0x200 0x1200) where
  memWf := by decide
  spBound := by decide
  pcBound := by decide
  stackBound := by decide
  buzzer := by decide
  tickHzPos := by decide
  accBound := by decide
  fontFits := by decide
  programFits := fun image h => by cases h
  faultIffHalted := by decide
  stoppedDisarmed := by decide
  runningArmed := by decide
  batchRunning := by decide
  monostableSingle := by decide

theorem wit_StepKeepsTheInvariant :
    ∃ t, Inv (tickAt 1 0x200 0x1200) ∧ step (tickAt 1 0x200 0x1200) = .next t := ⟨_, inv_running, rfl⟩

theorem wit_InvariantStatesNeverStop : Inv (tickAt 1 0x200 0x1200) := inv_running

theorem wit_OutputsAreOnlyAppended :
    ∃ t, step (tickAt 1 0x200 0xFFFF) = .next t ∧ t.outputs ≠ [] := ⟨_, rfl, by decide⟩

theorem wit_OutputsHaveNoWayBack : ∃ t, step (tickAt 1 0x200 0xFFFF) = .next t := ⟨_, rfl⟩

theorem wit_FetchIsBigEndian :
    (tickAt 1 0xFFE 0x1234).mem.get 4094 = 0x12 ∧ (tickAt 1 0xFFE 0x1234).mem.get 4095 = 0x34 := by decide

theorem wit_RangeWriteIsAllOrNothing :
    0xFFD + [1, 2, 3].length ≤ 4096 ∧ (([1, 2, 3] : List Byte) ≠ [] ∧ 4096 < 0xFFE + [1, 2, 3].length) := by decide

end Sys2Proof.Tests
end

section
/-! Outputs have no path back into the core (00_scope.md R12). To put earlier outputs in front of a state commutes with
every operation of the machine, one lemma per operation, and therefore with a step, whatever the step comes to. -/

namespace Sys2Proof.Machine

/-- `s` with earlier outputs in front of its own. -/
def State.withEarlier (earlier : List Output) (s : State) : State := { s with outputs := earlier ++ s.outputs }

/-- A step's outcome with earlier outputs in front of the next state's own; a stop has no state to put them in. -/
def resultWithEarlier (earlier : List Output) : Result → Result
  | .next t => .next (t.withEarlier earlier)
  | .fault f => .fault f
  | .refused r => .refused r

/-- What a step comes to before anything is executed, with earlier outputs in front. -/
def Action.withEarlier (earlier : List Output) : Action → Action
  | .settled r => .settled (resultWithEarlier earlier r)
  | .execute i => .execute i

open State (withEarlier)

variable (earlier : List Output)

/-! ## What is read does not depend on the outputs -/

@[simp] theorem withEarlier_cpu (s : State) : (s.withEarlier earlier).cpu = s.cpu := rfl
@[simp] theorem withEarlier_mem (s : State) : (s.withEarlier earlier).mem = s.mem := rfl
@[simp] theorem withEarlier_osc (s : State) : (s.withEarlier earlier).osc = s.osc := rfl
@[simp] theorem withEarlier_cfg (s : State) : (s.withEarlier earlier).cfg = s.cfg := rfl
@[simp] theorem withEarlier_program (s : State) : (s.withEarlier earlier).program = s.program := rfl
@[simp] theorem withEarlier_env (s : State) : (s.withEarlier earlier).env = s.env := rfl

@[simp] theorem reg_withEarlier (x : RegIx) (s : State) : reg x (s.withEarlier earlier) = reg x s := rfl
@[simp] theorem regsUpTo_withEarlier (x : RegIx) (s : State) :
    regsUpTo x (s.withEarlier earlier) = regsUpTo x s := rfl
@[simp] theorem dispGet_withEarlier (x : Fin 64) (y : Fin 32) (s : State) :
    dispGet x y (s.withEarlier earlier) = dispGet x y s := rfl
@[simp] theorem memReadWord_withEarlier (a : Nat) (s : State) :
    memReadWord a (s.withEarlier earlier) = memReadWord a s := rfl
@[simp] theorem memReadSpan_withEarlier (start len : Nat) (s : State) :
    memReadSpan start len (s.withEarlier earlier) = memReadSpan start len s := rfl
@[simp] theorem optionFlag_withEarlier (flag : OptionFlag) (s : State) :
    optionFlag flag (s.withEarlier earlier) = optionFlag flag s := rfl

/-! ## Outcomes -/

@[simp] theorem resultWithEarlier_next (t : State) :
    resultWithEarlier earlier (.next t) = .next (t.withEarlier earlier) := rfl
@[simp] theorem resultWithEarlier_fault (f : Fault) : resultWithEarlier earlier (.fault f) = .fault f := rfl
@[simp] theorem resultWithEarlier_refused (r : Refusal) :
    resultWithEarlier earlier (.refused r) = .refused r := rfl

/-- Two functions on the result of an attempt, one after the other. -/
@[simp] theorem Attempt.map_map {α β γ : Type} (f : α → β) (g : β → γ) (x : Attempt α) :
    (x.map f).map g = x.map fun a => g (f a) := by
  cases x <;> rfl

/-- A function on the result of an attempt, then an attempt that goes on from there. -/
@[simp] theorem Attempt.bind_map {α β γ : Type} (f : α → β) (g : β → Attempt γ) (x : Attempt α) :
    (x.map f).bind g = x.bind fun a => g (f a) := by
  cases x <;> rfl

/-- A function on the result of two attempts in sequence. -/
@[simp] theorem Attempt.map_bind {α β γ : Type} (f : α → Attempt β) (g : β → γ) (x : Attempt α) :
    (x.bind f).map g = x.bind fun a => (f a).map g := by
  cases x <;> rfl

/-! ## The primitives -/

@[simp] theorem emit_withEarlier (o : Output) (s : State) :
    emit o (s.withEarlier earlier) = (emit o s).withEarlier earlier := by
  simp [emit, withEarlier]

@[simp] theorem setReg_withEarlier (x : RegIx) (b : Byte) (s : State) :
    setReg x b (s.withEarlier earlier) = (setReg x b s).withEarlier earlier := rfl
@[simp] theorem setI_withEarlier (w : Word) (s : State) :
    setI w (s.withEarlier earlier) = (setI w s).withEarlier earlier := rfl
@[simp] theorem setPc_withEarlier (w : Word) (s : State) :
    setPc w (s.withEarlier earlier) = (setPc w s).withEarlier earlier := rfl
@[simp] theorem advance_withEarlier (s : State) :
    advance (s.withEarlier earlier) = (advance s).withEarlier earlier := rfl
@[simp] theorem writeDt_withEarlier (b : Byte) (s : State) :
    writeDt b (s.withEarlier earlier) = (writeDt b s).withEarlier earlier := rfl
@[simp] theorem afterKeys_withEarlier (s : State) :
    afterKeys (s.withEarlier earlier) = (afterKeys s).withEarlier earlier := rfl
@[simp] theorem afterRand_withEarlier (s : State) :
    afterRand (s.withEarlier earlier) = (afterRand s).withEarlier earlier := rfl

@[simp] theorem skipIf_withEarlier (c : Bool) (s : State) :
    skipIf c (s.withEarlier earlier) = (skipIf c s).withEarlier earlier := by
  cases c <;> rfl

@[simp] theorem blockIndexUpdate_withEarlier (x : RegIx) (s : State) :
    blockIndexUpdate x (s.withEarlier earlier) = (blockIndexUpdate x s).withEarlier earlier := by
  rw [blockIndexUpdate_eq, blockIndexUpdate_eq]
  rfl

@[simp] theorem setRegsFrom_withEarlier (k : Nat) (bytes : List Byte) (s : State) :
    setRegsFrom k bytes (s.withEarlier earlier) = (setRegsFrom k bytes s).withEarlier earlier := by
  induction bytes generalizing k s with
  | nil => rfl
  | cons b bs ih =>
    by_cases h : k < 16 <;> simp [setRegsFrom, h, ih]

@[simp] theorem memWrite_withEarlier (a : Nat) (v : Byte) (s : State) :
    memWrite a v (s.withEarlier earlier) = (memWrite a v s).map (withEarlier earlier) := by
  by_cases h : a < 4096
  · simp [memWrite_inside h, withEarlier]
  · simp [memWrite_outside (Nat.le_of_not_lt h)]

@[simp] theorem memWriteRange_withEarlier (start : Nat) (bytes : List Byte) (s : State) :
    memWriteRange start bytes (s.withEarlier earlier) =
      (memWriteRange start bytes s).map (withEarlier earlier) := by
  by_cases h : start + bytes.length ≤ 4096
  · simp [memWriteRange_inside h, withEarlier]
  · by_cases hb : bytes = []
    · subst hb; rfl
    · simp [memWriteRange_outside hb (Nat.lt_of_not_le h)]

@[simp] theorem memClear_withEarlier (s : State) :
    memClear (s.withEarlier earlier) = (memClear s).withEarlier earlier := by
  simp [memClear, emit, withEarlier]

@[simp] theorem dispClear_withEarlier (s : State) :
    dispClear (s.withEarlier earlier) = (dispClear s).withEarlier earlier := by
  simp [dispClear, emit, withEarlier]

@[simp] theorem dispSet_withEarlier (x : Fin 64) (y : Fin 32) (on : Bool) (s : State) :
    dispSet x y on (s.withEarlier earlier) = (dispSet x y on s).withEarlier earlier := by
  simp [dispSet, emit, withEarlier]

/-- The pixels of a draw, and the collision, whatever it was before. -/
theorem foldl_drawPixel_withEarlier (ps : List (Fin 64 × Fin 32)) (s : State) (hit : Bool) :
    ps.foldl drawPixel (s.withEarlier earlier, hit) =
      Prod.map (withEarlier earlier) id (ps.foldl drawPixel (s, hit)) := by
  induction ps generalizing s hit with
  | nil => rfl
  | cons p ps ih => simp [drawPixel, ih]

@[simp] theorem drawPixels_withEarlier (ps : List (Fin 64 × Fin 32)) (s : State) :
    drawPixels ps (s.withEarlier earlier) = Prod.map (withEarlier earlier) id (drawPixels ps s) :=
  foldl_drawPixel_withEarlier ..

@[simp] theorem push_withEarlier (a : Word) (s : State) :
    push a (s.withEarlier earlier) = (push a s).map (withEarlier earlier) := by
  by_cases hf : s.cpu.sp = 16#8
  · simp [push, hf]
  · by_cases h : s.cpu.sp.toNat < 16 <;> simp [push, hf, h, withEarlier]

@[simp] theorem pop_withEarlier (s : State) :
    pop (s.withEarlier earlier) = (pop s).map (Prod.map id (withEarlier earlier)) := by
  by_cases he : s.cpu.sp = 0#8
  · simp [pop, he]
  · by_cases h : s.cpu.sp.toNat - 1 < 16 <;> simp [pop, he, h, withEarlier]

@[simp] theorem writeSt_withEarlier (v : Byte) (s : State) :
    writeSt v (s.withEarlier earlier) = (writeSt v s).withEarlier earlier := by
  by_cases hs : s.cpu.st = 0#8 <;> by_cases hv : v = 0#8 <;> simp [writeSt, hs, hv, emit, withEarlier]

@[simp] theorem haltedState_withEarlier (s : State) (d : FaultRecord) :
    haltedState (s.withEarlier earlier) d = (haltedState s d).withEarlier earlier := by
  simp [haltedState, withEarlier]

@[simp] theorem takeFault_withEarlier (c : Cause) (o : Option Word) (a : Option Nat) (s : State) :
    takeFault c o a (s.withEarlier earlier) = (takeFault c o a s).withEarlier earlier := by
  simp [takeFault_eq]

theorem settle_withEarlier (i : Instr) (s : State) (x : Attempt State) :
    settle i (s.withEarlier earlier) (x.map (withEarlier earlier)) =
      resultWithEarlier earlier (settle i s x) := by
  cases x with
  | done t => rfl
  | raise c a => simp
  | stop f => rfl

/-! ## The instructions -/

@[simp] theorem storeDigits_withEarlier (i : Nat) (d : Byte × Byte × Byte) (s : State) :
    storeDigits i d (s.withEarlier earlier) = (storeDigits i d s).map (withEarlier earlier) := by
  simp [storeDigits]

/-- An instruction does the same whatever was put out before it: one that may fault through `settle`, one with a branch
or an output through its operation, and any other by computation. -/
theorem exec_withEarlier (i : Instr) (s : State) :
    exec i (s.withEarlier earlier) = resultWithEarlier earlier (exec i s) := by
  cases i
  case cls => simp [exec, execCls]
  case seImm | sneImm | seReg | sneReg => simp [exec, execSeImm, execSneImm, execSeReg, execSneReg]
  case skp | sknp => simp [exec, execSkp, execSknp]
  case ldVxK =>
    simp only [exec, execLdVxK, withEarlier_env]
    split <;> rfl
  case ldStVx => simp [exec, execLdStVx]
  case ret => simp [exec, execRet, ← settle_withEarlier]
  case call => simp [exec, execCall, ← settle_withEarlier]
  case drw => simp [exec, execDrw, ← settle_withEarlier]
  case ldB => simp [exec, execLdB, ← settle_withEarlier]
  case storeRegs => simp [exec, execStoreRegs, ← settle_withEarlier]
  case loadRegs => simp [exec, execLoadRegs, ← settle_withEarlier]
  all_goals rfl

/-! ## The Oscillator -/

theorem beginAstable_withEarlier (s : State) :
    beginAstable (s.withEarlier earlier) = resultWithEarlier earlier (beginAstable s) := by
  by_cases h : s.cfg.tickHz = 0 <;> simp [beginAstable, h, withEarlier]

theorem beginTick_withEarlier (s : State) :
    beginTick (s.withEarlier earlier) = resultWithEarlier earlier (beginTick s) := by
  by_cases ha : s.osc.tickArmed = false
  · simp [beginTick, ha]
  · by_cases hr : s.osc.runState = .running
    · cases hm : s.cfg.mode with
      | monostable => simp [beginTick, ha, hr, hm, beginMonostable, withEarlier]
      | astable => simp [beginTick, ha, hr, hm, ← beginAstable_withEarlier, withEarlier]
    · simp [beginTick, ha, hr, withEarlier]

@[simp] theorem timerDecay_withEarlier (s : State) :
    timerDecay (s.withEarlier earlier) = (timerDecay s).withEarlier earlier := by
  by_cases hd : s.cpu.dt = 0#8 <;> by_cases hs : s.cpu.st = 0#8 <;> simp [timerDecay, hd, hs]

theorem endTick_withEarlier (s : State) :
    endTick (s.withEarlier earlier) = (endTick s).withEarlier earlier := by
  unfold endTick
  cases hm : s.cfg.mode with
  | astable => simp [hm]
  | monostable => simp [hm, emit, withEarlier]

@[simp] theorem finishStep_withEarlier (s : State) :
    finishStep (s.withEarlier earlier) = (finishStep s).withEarlier earlier := by
  rcases hk : s.osc.stepsLeft with _ | _ | k
  · rw [finishStep_faulted hk]
    exact finishStep_faulted hk
  · rw [finishStep_last hk, ← endTick_withEarlier]
    exact finishStep_last hk
  · rw [finishStep_more hk]
    exact finishStep_more hk

@[simp] theorem afterExec_withEarlier (r : Result) :
    afterExec (resultWithEarlier earlier r) = resultWithEarlier earlier (afterExec r) := by
  cases r <;> simp [afterExec]

/-! ## The host commands -/

@[simp] theorem loadImage_withEarlier (start : Nat) (image : List Byte) (s : State) :
    loadImage start image (s.withEarlier earlier) = (loadImage start image s).map (withEarlier earlier) := by
  unfold loadImage
  rw [memWriteRange_withEarlier]
  cases memWriteRange start image s <;> rfl

@[simp] theorem reloadProgram_withEarlier (s : State) :
    reloadProgram (s.withEarlier earlier) = (reloadProgram s).map (withEarlier earlier) := by
  cases hp : s.program <;> simp [reloadProgram, hp]

@[simp] theorem clearScreenIfSet_withEarlier (s : State) :
    clearScreenIfSet (s.withEarlier earlier) = (clearScreenIfSet s).withEarlier earlier := by
  by_cases h : s.cfg.clearScreenOnReset <;> simp [clearScreenIfSet, h]

@[simp] theorem resetProcessor_withEarlier (s : State) :
    resetProcessor (s.withEarlier earlier) = (resetProcessor s).withEarlier earlier := by
  simp [resetProcessor_eq, withEarlier]

@[simp] theorem resetOscillator_withEarlier (s : State) :
    resetOscillator (s.withEarlier earlier) = (resetOscillator s).withEarlier earlier := rfl

@[simp] theorem restart_withEarlier (s : State) :
    restart (s.withEarlier earlier) = (restart s).map (withEarlier earlier) := by
  simp [restart, Function.comp_def]

@[simp] theorem powerCycle_withEarlier (s : State) :
    powerCycle (s.withEarlier earlier) = (powerCycle s).map (withEarlier earlier) := by
  simp [powerCycle, Function.comp_def, Option.map_bind, Option.bind_map]

@[simp] theorem loadProgram_withEarlier (image : List Byte) (s : State) :
    loadProgram image (s.withEarlier earlier) = (loadProgram image s).map (withEarlier earlier) := by
  unfold loadProgram
  split_ifs
  · simp
  · exact loadImage_withEarlier earlier _ image { s with program := some image }

@[simp] theorem commandResult_withEarlier (x : Option State) :
    commandResult (x.map (withEarlier earlier)) = resultWithEarlier earlier (commandResult x) := by
  cases x <;> rfl

/-- An input does the same whatever was put out before it. -/
theorem applyInput_withEarlier (i : Input) (s : State) :
    applyInput i (s.withEarlier earlier) = resultWithEarlier earlier (applyInput i s) := by
  cases i
  case tick => exact beginTick_withEarlier ..
  case start | stop | setMode | setSpeed => rfl
  case setOptionFlag flag b => cases flag <;> rfl
  case getOptionFlag | loadProgram | powerCycle | restart => simp [applyInput]

theorem takeInput_withEarlier (s : State) :
    takeInput (s.withEarlier earlier) = resultWithEarlier earlier (takeInput s) := by
  unfold takeInput
  cases hi : s.env.inputs with
  | nil => simp [hi]
  | cons i rest => simp only [withEarlier_env, hi]; exact applyInput_withEarlier earlier i (inputTaken s rest)

/-! ## A step -/

theorem decodePhase_withEarlier (op : Word) (s : State) :
    decodePhase op (s.withEarlier earlier) = (decodePhase op s).withEarlier earlier := by
  unfold decodePhase
  cases decodeWord op <;> simp [Action.withEarlier]

theorem fetchPhase_withEarlier (s : State) :
    fetchPhase (s.withEarlier earlier) = (fetchPhase s).withEarlier earlier := by
  unfold fetchPhase
  simp only [memReadWord_withEarlier, withEarlier_cpu]
  cases memReadWord s.cpu.pc.toNat s with
  | done op => exact decodePhase_withEarlier ..
  | raise c a => simp [Action.withEarlier]
  | stop f => rfl

theorem nextAction_withEarlier (s : State) :
    nextAction (s.withEarlier earlier) = (nextAction s).withEarlier earlier := by
  by_cases h : s.osc.stepsLeft = 0
  · simp [nextAction, h, takeInput_withEarlier, Action.withEarlier]
  · simp [nextAction, h, fetchPhase_withEarlier]

/-- A step comes to the same whatever was put out before it. -/
theorem step_withEarlier (s : State) :
    step (s.withEarlier earlier) = resultWithEarlier earlier (step s) := by
  unfold step
  rw [nextAction_withEarlier]
  cases nextAction s with
  | settled r => rfl
  | execute i => simp [Action.withEarlier, exec_withEarlier]

end Sys2Proof.Machine

namespace Sys2Proof.Proofs

open Sys2Proof.Machine

/-- Settles O54: a step commutes with putting earlier outputs in front (`step_withEarlier`). -/
theorem outputsHaveNoWayBack : Obligations.OutputsHaveNoWayBack := by
  intro s t earlier h
  have hs := step_withEarlier earlier s
  rwa [h] at hs

end Sys2Proof.Proofs
end

section
/-! The invariant and the frames of 10_state.md. `Inv` is kept by each thing a step can be made of, one lemma for each:
the halt sequence, a completed instruction, the end of a batch, and every input; a state that starts over meets it. -/

namespace Sys2Proof.Machine

/-! ## Shapes of updates and outcomes -/

/-- A write to ST changes ST, the Buzzer and the outputs, as one update. -/
theorem writeSt_eq (b : Byte) (s : State) :
    writeSt b s =
      { s with
        cpu := { s.cpu with st := b }
        buzzing := (writeSt b s).buzzing
        outputs := (writeSt b s).outputs } := by
  unfold writeSt
  dsimp only
  split_ifs <;> rfl

theorem commandResult_next {x : Option State} {t : State} (h : commandResult x = .next t) : x = some t := by
  cases x with
  | some u => cases h; rfl
  | none => cases h

theorem map_eq_done {α β : Type} {x : Attempt α} {f : α → β} {b : β} (h : x.map f = .done b) :
    ∃ a, x = .done a ∧ f a = b := by
  cases x with
  | done a => cases h; exact ⟨a, rfl, rfl⟩
  | raise | stop => cases h

theorem bind_eq_done {α β : Type} {x : Attempt α} {f : α → Attempt β} {b : β} (h : x.bind f = .done b) :
    ∃ a, x = .done a ∧ f a = .done b := by
  cases x with
  | done a => exact ⟨a, rfl, h⟩
  | raise | stop => cases h

@[simp] theorem haltedState_cpu (s : State) (d : FaultRecord) : (haltedState s d).cpu = s.cpu := rfl
@[simp] theorem haltedState_mem (s : State) (d : FaultRecord) : (haltedState s d).mem = s.mem := rfl
@[simp] theorem haltedState_fb (s : State) (d : FaultRecord) : (haltedState s d).fb = s.fb := rfl
@[simp] theorem haltedState_buzzing (s : State) (d : FaultRecord) : (haltedState s d).buzzing = s.buzzing := rfl
@[simp] theorem haltedState_cfg (s : State) (d : FaultRecord) : (haltedState s d).cfg = s.cfg := rfl
@[simp] theorem haltedState_program (s : State) (d : FaultRecord) : (haltedState s d).program = s.program := rfl
@[simp] theorem haltedState_env (s : State) (d : FaultRecord) : (haltedState s d).env = s.env := rfl

/-! ## The invariant: where it begins -/

/-- A state whose Processor and Oscillator are as after a reset meets the invariant, if its Memory, straps and stored
program do (10_state.md R37). -/
theorem inv_of_initial {s : State} (hcpu : s.cpu = .initial) (hosc : s.osc = .initial) (hbuzz : s.buzzing = false)
    (hmem : s.mem.wf) (htick : 0 < s.cfg.tickHz) (hfont : s.cfg.fontBase.toNat + s.cfg.fontImage.length ≤ 0x200)
    (hprog : ∀ image, s.program = some image → image.length ≤ 3584) : Inv s where
  memWf := hmem
  spBound := by simp [hcpu, Processor.initial]
  pcBound := by simp [hcpu, Processor.initial]
  stackBound k := by simp [hcpu, initial_registers]
  buzzer := by simp [hbuzz, hcpu, Processor.initial]
  tickHzPos := htick
  accBound := by simpa [hosc, Oscillator.initial] using htick
  fontFits := hfont
  programFits := hprog
  faultIffHalted := by simp [hosc, Oscillator.initial]
  stoppedDisarmed _ := by simp [hosc, Oscillator.initial]
  runningArmed := by simp [hosc, Oscillator.initial]
  batchRunning := by simp [hosc, Oscillator.initial]
  monostableSingle _ := by simp [hosc, Oscillator.initial]

/-! ## The invariant: a Step -/

/-- The halt sequence keeps the invariant: a fault is recorded and Halted entered together, and the batch is dropped
(60_exceptions.md R205). -/
theorem inv_haltedState {s : State} (h : Inv s) (d : FaultRecord) : Inv (haltedState s d) :=
  { h with
    faultIffHalted := by simp [haltedState]
    stoppedDisarmed := by simp [haltedState]
    runningArmed := by simp [haltedState]
    batchRunning := by simp [haltedState]
    monostableSingle := by simp [haltedState] }

/-- A completed instruction that could be fetched keeps the invariant. -/
theorem Keeps.inv {s t : State} (hk : Keeps s t) (hpc : s.cpu.pc.toNat + 1 < 4096) (h : Inv s) : Inv t where
  memWf := hk.memWf h.memWf
  spBound := hk.sp h.spBound
  pcBound := hk.pc hpc h.stackBound
  stackBound := hk.stack hpc h.stackBound
  buzzer := hk.buzzer h.buzzer
  tickHzPos := hk.cfg ▸ h.tickHzPos
  accBound := by rw [hk.osc, hk.cfg]; exact h.accBound
  fontFits := hk.cfg ▸ h.fontFits
  programFits := hk.program ▸ h.programFits
  faultIffHalted := hk.osc ▸ h.faultIffHalted
  stoppedDisarmed := hk.osc ▸ h.stoppedDisarmed
  runningArmed := hk.osc ▸ h.runningArmed
  batchRunning := hk.osc ▸ h.batchRunning
  monostableSingle := by rw [hk.osc, hk.cfg]; exact h.monostableSingle

/-- An instruction that could be fetched keeps the invariant, whether it completes or faults. -/
theorem inv_exec {i : Instr} {s t : State} (h : Inv s) (hpc : s.cpu.pc.toNat + 1 < 4096)
    (he : exec i s = .next t) : Inv t := by
  obtain hk | ⟨c, a, rfl⟩ := exec_keeps i s t he
  · exact hk.inv hpc h
  · exact inv_haltedState h _

/-- A write to ST keeps the invariant: the Buzzer follows it (60_exceptions.md R231). -/
theorem inv_writeSt {s : State} (h : Inv s) (b : Byte) : Inv (writeSt b s) := by
  rw [writeSt_eq]
  exact { h with buzzer := buzzing_writeSt b s h.buzzer }

theorem inv_writeDt {s : State} (h : Inv s) (b : Byte) : Inv (writeDt b s) := { h with }

theorem inv_decayDt {s : State} (h : Inv s) : Inv (if s.cpu.dt = 0 then s else writeDt (s.cpu.dt - 1) s) := by
  split_ifs
  exacts [h, inv_writeDt h _]

theorem inv_decaySt {s : State} (h : Inv s) : Inv (if s.cpu.st = 0 then s else writeSt (s.cpu.st - 1) s) := by
  split_ifs
  exacts [h, inv_writeSt h _]

theorem inv_timerDecay {s : State} (h : Inv s) : Inv (timerDecay s) := inv_decaySt (inv_decayDt h)

/-- A batch that gets no longer keeps the invariant. -/
theorem inv_stepsLeft_le {s : State} (h : Inv s) {n : Nat} (hn : n ≤ s.osc.stepsLeft) :
    Inv { s with osc := { s.osc with stepsLeft := n } } :=
  { h with
    batchRunning := fun hne => h.batchRunning (by have : n ≠ 0 := hne; omega)
    monostableSingle := fun hm => hn.trans (h.monostableSingle hm) }

/-- The end of a tick keeps the invariant: Running, no fault is recorded, so a Monostable tick may go to Stopped. -/
theorem inv_endTick {s : State} (h : Inv s) (hrun : s.osc.runState = .running) (hleft : s.osc.stepsLeft = 0) :
    Inv (endTick s) := by
  have hfault : s.osc.fault = none := by
    by_contra hne
    simp [h.faultIffHalted.1 hne] at hrun
  unfold endTick
  cases s.cfg.mode with
  | astable => exact inv_timerDecay h
  | monostable =>
    exact { h with
      faultIffHalted := by simp [hfault]
      stoppedDisarmed := by simp
      runningArmed := by simp
      batchRunning := by simp [hleft] }

/-- What follows an executed instruction keeps the invariant. -/
theorem inv_finishStep {s : State} (h : Inv s) : Inv (finishStep s) := by
  rcases hk : s.osc.stepsLeft with _ | _ | k
  · rwa [finishStep_faulted hk]
  · rw [finishStep_last hk]
    exact inv_endTick (inv_stepsLeft_le h (Nat.zero_le _)) (h.batchRunning (by omega)) rfl
  · rw [finishStep_more hk]
    exact inv_stepsLeft_le h (by omega)

/-! ## The invariant: an input between ticks -/

/-- A tick pulse keeps the invariant: only while Running does it make Steps due, and `acc` is a remainder of TICK_HZ
(60_exceptions.md R224 to R226). -/
theorem inv_beginTick {s t : State} (h : Inv s) (hb : beginTick s = .next t) : Inv t := by
  unfold beginTick at hb
  dsimp only at hb
  split_ifs at hb with harmed hrun
  · cases hb; exact h
  · cases hb; exact { h with }
  · have hrun : s.osc.runState = .running := not_not.1 hrun
    cases hm : s.cfg.mode with
    | monostable =>
      simp only [hm, beginMonostable] at hb
      cases hb
      exact { h with
        batchRunning := fun _ => hrun
        monostableSingle := fun _ => le_rfl }
    | astable =>
      simp only [hm, beginAstable, if_neg h.tickHzPos.ne'] at hb
      cases hb
      exact { h with
        accBound := Nat.mod_lt _ h.tickHzPos
        batchRunning := fun _ => hrun
        monostableSingle := fun hm' => by simp [hm] at hm' }

theorem inv_start {s : State} (h : Inv s) : Inv (start s) :=
  { h with
    faultIffHalted := by simp [start]
    stoppedDisarmed := by simp [start]
    runningArmed := fun _ => rfl
    batchRunning := fun _ => rfl }

/-- `Stop()` keeps the invariant between ticks: Running goes to Stopped, and any other run state stays. -/
theorem inv_stop {s : State} (h : Inv s) (hleft : s.osc.stepsLeft = 0) : Inv (stop s) :=
  { h with
    faultIffHalted := by
      rw [show (stop s).osc.fault = s.osc.fault from rfl, h.faultIffHalted]
      by_cases hrun : s.osc.runState = .running <;> simp [stop, hrun]
    stoppedDisarmed := fun _ => rfl
    runningArmed := by
      by_cases hrun : s.osc.runState = .running <;> simp [stop, hrun]
    batchRunning := by simp [stop, hleft] }

theorem inv_setOptionFlag {s : State} (h : Inv s) (flag : OptionFlag) (b : Bool) : Inv (setOptionFlag flag b s) := by
  cases flag <;> exact { h with }

/-- The stored program, which counts as empty when there is none, fits its place (10_state.md R33). -/
theorem Inv.program_length {s : State} (h : Inv s) : (s.program.getD []).length ≤ 3584 := by
  cases hp : s.program with
  | none => simp
  | some image => exact h.programFits image hp

/-- The Buzzer after a reset is off, since it was off with ST = 0 (60_exceptions.md R231). -/
theorem Inv.buzzing_after_reset {s : State} (h : Inv s) :
    (if s.cpu.st = 0 then s.buzzing else false) = false := by
  split_ifs with hst
  · exact Bool.eq_false_iff.2 fun hb => h.buzzer.1 hb hst
  · rfl

theorem inv_restart {s t : State} (h : Inv s) (hr : restart s = some t) : Inv t := by
  rw [restart_eq h.program_length] at hr
  cases hr
  exact inv_of_initial rfl rfl h.buzzing_after_reset
    (Memory.wf_setRange h.memWf _ _ (by have := h.program_length; omega)) h.tickHzPos h.fontFits h.programFits

theorem inv_powerCycle {s t : State} (h : Inv s) (hp : powerCycle s = some t) : Inv t := by
  have hfont := h.fontFits
  have hprog := h.program_length
  rw [powerCycle_eq (by omega) hprog] at hp
  cases hp
  exact inv_of_initial rfl rfl h.buzzing_after_reset
    (Memory.wf_setRange (Memory.wf_setRange Memory.wf_empty _ _ (by omega)) _ _ (by omega))
    h.tickHzPos h.fontFits h.programFits

/-- `LoadProgram` keeps the invariant: what becomes the stored program has at most 3584 bytes (R254, R255). -/
theorem inv_loadProgram {image : List Byte} {s t : State} (h : Inv s) (hl : loadProgram image s = some t) :
    Inv t := by
  unfold loadProgram at hl
  split_ifs at hl with hlong
  · cases hl
    exact { h with }
  · have hfit : 0x200 + image.length ≤ 4096 := by simp at hlong; omega
    rw [loadImage_fits hfit] at hl
    cases hl
    exact { h with
      memWf := Memory.wf_setRange h.memWf _ _ hfit
      programFits := fun image' he => by cases he; omega }

/-- Every input taken between ticks keeps the invariant. -/
theorem inv_applyInput {i : Input} {s t : State} (h : Inv s) (hleft : s.osc.stepsLeft = 0)
    (ha : applyInput i s = .next t) : Inv t := by
  cases i with
  | tick => exact inv_beginTick h ha
  | start => cases ha; exact inv_start h
  | stop => cases ha; exact inv_stop h hleft
  | setMode m => cases ha; exact { h with monostableSingle := fun _ => by simp [hleft] }
  | setSpeed hz => cases ha; exact { h with }
  | setOptionFlag flag b => cases ha; exact inv_setOptionFlag h flag b
  | getOptionFlag flag => cases ha; exact { h with }
  | loadProgram image => exact inv_loadProgram h (commandResult_next ha)
  | powerCycle => exact inv_powerCycle h (commandResult_next ha)
  | restart => exact inv_restart h (commandResult_next ha)

theorem inv_takeInput {s t : State} (h : Inv s) (hleft : s.osc.stepsLeft = 0) (ht : takeInput s = .next t) :
    Inv t := by
  unfold takeInput at ht
  cases hi : s.env.inputs with
  | nil => simp only [hi] at ht; cases ht; exact h
  | cons i rest =>
    simp only [hi] at ht
    exact inv_applyInput (s := inputTaken s rest) { h with } hleft ht

/-- A step that ends in a next state keeps the invariant, whichever of the four things it is. -/
theorem inv_step {s t : State} (h : Inv s) (hst : step s = .next t) : Inv t := by
  obtain ⟨hleft, he⟩ | ⟨-, -, he⟩ | ⟨op, -, -, -, he⟩ | ⟨op, i, -, ⟨hpc, -⟩, -, he⟩ := step_cases s
    <;> rw [he] at hst
  · exact inv_takeInput h hleft hst
  · cases hst; exact inv_haltedState h _
  · cases hst; exact inv_haltedState h _
  · cases hx : exec i s with
    | next u =>
      rw [hx] at hst
      cases hst
      exact inv_finishStep (inv_exec h hpc hx)
    | fault f => rw [hx] at hst; cases hst
    | refused r => rw [hx] at hst; cases hst

/-! ## The frames of the instructions that can fault -/

/-- A push that completes changes the stack and SP. -/
theorem push_done {a : Word} {s t : State} (h : push a s = .done t) :
    ∃ stack sp, t = { s with cpu := { s.cpu with stack := stack, sp := sp } } := by
  unfold push at h
  split_ifs at h
  cases h
  exact ⟨_, _, rfl⟩

/-- A pop that completes changes SP. -/
theorem pop_done {s : State} {p : Word × State} (h : pop s = .done p) :
    ∃ w sp, p = (w, { s with cpu := { s.cpu with sp := sp } }) := by
  unfold pop at h
  split_ifs at h
  cases h
  exact ⟨_, _, rfl⟩

/-- A byte write that completes changes Memory and the outputs. -/
theorem memWrite_done {a : Nat} {v : Byte} {s t : State} (h : memWrite a v s = .done t) :
    ∃ mem outputs, t = { s with mem := mem, outputs := outputs } := by
  by_cases ha : a < 4096
  · rw [memWrite_inside ha] at h
    cases h
    exact ⟨_, _, rfl⟩
  · rw [memWrite_outside (by omega)] at h
    cases h

/-- A range write that completes changes Memory and the outputs. -/
theorem memWriteRange_done {start : Nat} {bytes : List Byte} {s t : State}
    (h : memWriteRange start bytes s = .done t) : ∃ mem outputs, t = { s with mem := mem, outputs := outputs } := by
  by_cases hin : start + bytes.length ≤ 4096
  · rw [memWriteRange_inside hin] at h
    cases h
    exact ⟨_, _, rfl⟩
  · by_cases hb : bytes = []
    · subst hb
      cases h
      exact ⟨_, _, rfl⟩
    · rw [memWriteRange_outside hb (by omega)] at h
      cases h

/-- Three digits stored change Memory and the outputs. -/
theorem storeDigits_done {i : Nat} {d : Byte × Byte × Byte} {s t : State} (h : storeDigits i d s = .done t) :
    ∃ mem outputs, t = { s with mem := mem, outputs := outputs } := by
  obtain ⟨-, -, h⟩ := bind_eq_done h
  obtain ⟨s1, h1, h⟩ := bind_eq_done h
  obtain ⟨s2, h2, h3⟩ := bind_eq_done h
  obtain ⟨_, _, rfl⟩ := memWrite_done h1
  obtain ⟨_, _, rfl⟩ := memWrite_done h2
  obtain ⟨_, _, rfl⟩ := memWrite_done h3
  exact ⟨_, _, rfl⟩

/-- A draw changes the display and the outputs. -/
theorem drawPixels_fst (ps : List (Fin 64 × Fin 32)) (s : State) :
    ∃ fb outputs, (drawPixels ps s).1 = { s with fb := fb, outputs := outputs } :=
  ⟨_, _, foldl_drawPixel_eq ps s false⟩

/-- Registers written in ascending order are all that changes. -/
theorem setRegsFrom_changes (k : Nat) (bytes : List Byte) (s : State) :
    ∃ v, setRegsFrom k bytes s = { s with cpu := { s.cpu with v := v } } :=
  ⟨_, setRegsFrom_eq k bytes s⟩

end Sys2Proof.Machine

namespace Sys2Proof.Proofs

open Sys2Proof.Machine

/-- Settles O51: `inv_step`, from one lemma for each thing a step can be (`step_cases`). -/
theorem stepKeepsTheInvariant : Obligations.StepKeepsTheInvariant := fun _ _ => inv_step

/-- Settles O50: the constructed machine's parts are those of a reset. -/
theorem resetMeetsTheInvariant : Obligations.ResetMeetsTheInvariant :=
  inv_of_initial rfl rfl rfl Memory.wf_empty (by decide) (by decide) nofun

/-- Settles O13: an instruction that faults leaves every piece of state of the table alone; of the others, the six that
could have faulted change what the lemma on their operation says, and the rest what their update writes. -/
theorem instructionsWriteOnlyTheirState : Obligations.InstructionsWriteOnlyTheirState := by
  intro i s t h
  cases i
  case ret =>
    obtain hx | ⟨c, a, rfl⟩ := settle_cases h
    · obtain ⟨p, hp, rfl⟩ := map_eq_done hx
      obtain ⟨w, sp, rfl⟩ := pop_done hp
      simp [Instr.op]
    · simp
  case call nnn =>
    obtain hx | ⟨c, a, rfl⟩ := settle_cases h
    · obtain ⟨u, hu, rfl⟩ := map_eq_done hx
      obtain ⟨stack, sp, rfl⟩ := push_done hu
      simp [Instr.op]
    · simp
  case drw x y n =>
    obtain hx | ⟨c, a, rfl⟩ := settle_cases h
    · obtain ⟨rows, -, rfl⟩ := map_eq_done hx
      obtain ⟨fb, outputs, hd⟩ := drawPixels_fst
        (spritePixels ((reg x s).toNat % 64) ((reg y s).toNat % 32) rows) (advance s)
      simp [Instr.op, hd]
    · simp
  case ldB x =>
    obtain hx | ⟨c, a, rfl⟩ := settle_cases h
    · obtain ⟨mem, outputs, rfl⟩ := storeDigits_done hx
      simp [Instr.op]
    · simp
  case storeRegs x =>
    obtain hx | ⟨c, a, rfl⟩ := settle_cases h
    · obtain ⟨u, hu, rfl⟩ := map_eq_done hx
      obtain ⟨mem, outputs, rfl⟩ := memWriteRange_done hu
      simp +contextual [Instr.op, blockIndexUpdate_eq]
    · simp
  case loadRegs x =>
    obtain hx | ⟨c, a, rfl⟩ := settle_cases h
    · obtain ⟨bytes, -, rfl⟩ := map_eq_done hx
      obtain ⟨v, hv⟩ := setRegsFrom_changes 0 bytes (advance s)
      simp +contextual [Instr.op, blockIndexUpdate_eq, hv]
    · simp
  case ldVxK x =>
    simp only [exec, execLdVxK] at h
    split at h <;> cases h <;> simp [Instr.op]
  case jp | jpV0 | seImm | sneImm | seReg | sneReg => cases h; simp [Instr.op]
  case cls | ldDtVx | ldStVx | ldI | addI | ldF => cases h; simp [Instr.op]
  case skp | sknp | rnd => cases h; simp [Instr.op]
  case addReg | subReg | shr | subnReg | shl => cases h; simp [Instr.op, setResultAndFlag]
  case ldImm | addImm | ldReg | orReg | andReg | xorReg | ldVxDt => cases h; simp [Instr.op]

/-- Settles O49: the parts are those of a reset, and Memory is an empty one with the font written over it. -/
theorem constructionLeavesTheResetState : Obligations.ConstructionLeavesTheResetState := by
  intro c hfont
  obtain ⟨hv, hstack, hfb⟩ := initial_registers
  refine ⟨hv, rfl, rfl, rfl, hstack, rfl, rfl, rfl, hfb, rfl, rfl, rfl, rfl, fun a => ?_,
    Memory.wf_setRange Memory.wf_empty _ _ (by omega)⟩
  refine (Memory.get_setRange ..).trans ?_
  rw [Memory.get_empty]
  by_cases hlow : c.fontBase.toNat ≤ a
  · rw [if_pos hlow]
    split_ifs with hin
    · rfl
    · exact (List.getD_eq_default _ _ (by omega)).symm
  · rw [if_neg hlow, if_neg (by omega)]

end Sys2Proof.Proofs
end

section
/-! The decoder reads back what the encoder writes (30_encoding.md R88): each field of the word of a row and its operands,
by the row's format, and from these the decoder, row by row. -/

namespace Sys2Proof

/-! ## Where the match value leaves room for the fields -/

/-- The largest operands fit under the top four bits, beside the rest of the match value (30_encoding.md R81). -/
theorem match_room (r : Op) :
    r.matchBits.toNat % 4096 + (r.format.limits.x - 1) * 256 + (r.format.limits.y - 1) * 16 +
      (r.format.limits.n - 1) + (r.format.limits.kk - 1) + (r.format.limits.nnn - 1) < 4096 := by
  cases r <;> decide

/-- In a row with an `x` field, what lies below `op[11:8]` fits there. -/
theorem match_room_below_x (r : Op) (hx : r.format.limits.x = 16) :
    r.matchBits.toNat % 4096 + (r.format.limits.y - 1) * 16 + (r.format.limits.n - 1) +
      (r.format.limits.kk - 1) + (r.format.limits.nnn - 1) < 256 := by
  revert hx
  cases r <;> decide

/-- In a row with a `y` field, what lies below `op[7:4]` fits there. -/
theorem match_room_below_y (r : Op) (hy : r.format.limits.y = 16) :
    r.matchBits.toNat % 256 + (r.format.limits.n - 1) + (r.format.limits.kk - 1) +
      (r.format.limits.nnn - 1) < 16 := by
  revert hy
  cases r <;> decide

/-! ## The fields of an encoded word -/

section
variable {r : Op} {f : Fields} (h : f.wellFormed r.format = true)
include h

theorem category_encodeFields : category (encodeFields r f) = r.matchBits.toNat / 4096 := by
  obtain ⟨hx, hy, hn, hkk, hnnn⟩ := Fields.bounds h
  have := match_room r
  rw [category_eq, toNat_encodeFields r f h]
  omega

theorem fieldX_encodeFields (hr : r.format.limits.x = 16) : fieldX (encodeFields r f) = Fin.ofNat 16 f.x := by
  obtain ⟨hx, hy, hn, hkk, hnnn⟩ := Fields.bounds h
  have := match_room_below_x r hr
  apply Fin.ext
  rw [val_fieldX, toNat_encodeFields r f h, Fin.val_ofNat]
  omega

theorem fieldY_encodeFields (hr : r.format.limits.y = 16) : fieldY (encodeFields r f) = Fin.ofNat 16 f.y := by
  obtain ⟨hx, hy, hn, hkk, hnnn⟩ := Fields.bounds h
  have := match_room_below_y r hr
  apply Fin.ext
  rw [val_fieldY, toNat_encodeFields r f h, Fin.val_ofNat]
  omega

theorem fieldNnn_encodeFields (hr : r.format = .nnn) : fieldNnn (encodeFields r f) = BitVec.ofNat 12 f.nnn := by
  obtain ⟨hx, hy, hn, hkk, hnnn⟩ := Fields.bounds h
  have := match_high r (.inl hr)
  simp only [hr, Format.limits] at hx hy hn hkk hnnn
  apply BitVec.eq_of_toNat_eq
  rw [toNat_fieldNnn, toNat_encodeFields r f h, BitVec.toNat_ofNat]
  omega

theorem fieldKk_encodeFields_xkk (hr : r.format = .xkk) :
    fieldKk (encodeFields r f) = BitVec.ofNat 8 f.kk := by
  obtain ⟨hx, hy, hn, hkk, hnnn⟩ := Fields.bounds h
  have := match_high r (.inr (.inl hr))
  simp only [hr, Format.limits] at hx hy hn hkk hnnn
  apply BitVec.eq_of_toNat_eq
  rw [toNat_fieldKk, toNat_encodeFields r f h, BitVec.toNat_ofNat]
  omega

theorem fieldKk_encodeFields_x (hr : r.format = .x) :
    fieldKk (encodeFields r f) = BitVec.ofNat 8 r.matchBits.toNat := by
  obtain ⟨hx, hy, hn, hkk, hnnn⟩ := Fields.bounds h
  simp only [hr, Format.limits] at hx hy hn hkk hnnn
  apply BitVec.eq_of_toNat_eq
  rw [toNat_fieldKk, toNat_encodeFields r f h, BitVec.toNat_ofNat]
  omega

theorem fieldN_encodeFields_xy (hr : r.format = .xy) :
    fieldN (encodeFields r f) = BitVec.ofNat 4 r.matchBits.toNat := by
  obtain ⟨hx, hy, hn, hkk, hnnn⟩ := Fields.bounds h
  simp only [hr, Format.limits] at hx hy hn hkk hnnn
  apply BitVec.eq_of_toNat_eq
  rw [toNat_fieldN, toNat_encodeFields r f h, BitVec.toNat_ofNat]
  omega

theorem fieldN_encodeFields_xyn (hr : r.format = .xyn) : fieldN (encodeFields r f) = BitVec.ofNat 4 f.n := by
  obtain ⟨hx, hy, hn, hkk, hnnn⟩ := Fields.bounds h
  have := match_high r (.inr (.inr hr))
  simp only [hr, Format.limits] at hx hy hn hkk hnnn
  apply BitVec.eq_of_toNat_eq
  rw [toNat_fieldN, toNat_encodeFields r f h, BitVec.toNat_ofNat]
  omega

/-- A row without operands has one word. -/
theorem encodeFields_fixed (hr : r.format = .fixed) : encodeFields r f = r.matchBits := by
  obtain ⟨hx, hy, hn, hkk, hnnn⟩ := Fields.bounds h
  simp only [hr, Format.limits] at hx hy hn hkk hnnn
  apply BitVec.eq_of_toNat_eq
  rw [toNat_encodeFields r f h]
  omega

/-! ## The decoder on encoded words -/

/-- What `Encode(row, fields)` decodes to, for every row and every field value in range: the top four bits choose the
family, and the low nibble or the low byte the row within it (30_encoding.md R84, R88). -/
theorem decodeWord_encodeFields : decodeWord (encodeFields r f) = some (r.instr f) := by
  have hc := category_encodeFields h
  cases r
  case cls | ret =>
    rw [encodeFields_fixed h rfl]
    rfl
  case jp | call | ldI | jpV0 =>
    simp [decodeWord, hc, fieldNnn_encodeFields h rfl, Op.matchBits, Op.instr]
  case seImm | sneImm | ldImm | addImm | rnd =>
    simp [decodeWord, hc, fieldX_encodeFields h rfl, fieldKk_encodeFields_xkk h rfl, Op.matchBits, Op.instr]
  case seReg | sneReg =>
    simp [decodeWord, hc, fieldX_encodeFields h rfl, fieldY_encodeFields h rfl, fieldN_encodeFields_xy h rfl,
      Op.matchBits, Op.instr]
  case ldReg | orReg | andReg | xorReg | addReg | subReg | shr | subnReg | shl =>
    simp [decodeWord, decode8, hc, fieldX_encodeFields h rfl, fieldY_encodeFields h rfl,
      fieldN_encodeFields_xy h rfl, Op.matchBits, Op.instr]
  case drw =>
    simp [decodeWord, hc, fieldX_encodeFields h rfl, fieldY_encodeFields h rfl, fieldN_encodeFields_xyn h rfl,
      Op.matchBits, Op.instr]
  case skp | sknp =>
    simp [decodeWord, decodeE, hc, fieldX_encodeFields h rfl, fieldKk_encodeFields_x h rfl, Op.matchBits, Op.instr]
  case ldVxDt | ldVxK | ldDtVx | ldStVx | addI | ldF | ldB | storeRegs | loadRegs =>
    simp [decodeWord, decodeF, hc, fieldX_encodeFields h rfl, fieldKk_encodeFields_x h rfl, Op.matchBits, Op.instr]

end

end Sys2Proof

namespace Sys2Proof.Laws.FieldsRebuild

/-- The fields of every instruction rebuild it. -/
theorem of_instr : ∀ i : Instr, Statement i
  | .cls => cls
  | .ret => ret
  | .jp nnn => jp nnn
  | .call nnn => call nnn
  | .seImm x kk => seImm x kk
  | .sneImm x kk => sneImm x kk
  | .seReg x y => seReg x y
  | .ldImm x kk => ldImm x kk
  | .addImm x kk => addImm x kk
  | .ldReg x y => ldReg x y
  | .orReg x y => orReg x y
  | .andReg x y => andReg x y
  | .xorReg x y => xorReg x y
  | .addReg x y => addReg x y
  | .subReg x y => subReg x y
  | .shr x y => shr x y
  | .subnReg x y => subnReg x y
  | .shl x y => shl x y
  | .sneReg x y => sneReg x y
  | .ldI nnn => ldI nnn
  | .jpV0 nnn => jpV0 nnn
  | .rnd x kk => rnd x kk
  | .drw x y n => drw x y n
  | .skp x => skp x
  | .sknp x => sknp x
  | .ldVxDt x => ldVxDt x
  | .ldVxK x => ldVxK x
  | .ldDtVx x => ldDtVx x
  | .ldStVx x => ldStVx x
  | .addI x => addI x
  | .ldF x => ldF x
  | .ldB x => ldB x
  | .storeRegs x => storeRegs x
  | .loadRegs x => loadRegs x

end Sys2Proof.Laws.FieldsRebuild

namespace Sys2Proof

/-- The fields of every instruction pass the check of its row, and the row's instruction of them is the instruction. -/
theorem Instr.fields_wellFormed_and_rebuild (i : Instr) :
    i.fields.wellFormed i.op.format = true ∧ i.op.instr i.fields = i := by
  have hi := Laws.FieldsRebuild.of_instr i
  rwa [Laws.FieldsRebuild.Statement, Instr.ofFields, Option.ite_none_right_eq_some, Option.some_inj] at hi

/-- The word of an instruction decodes to it (30_encoding.md R88). -/
theorem decodeWord_encode (i : Instr) : decodeWord (encode i) = some i := by
  obtain ⟨hwf, hi⟩ := i.fields_wellFormed_and_rebuild
  rw [encode, decodeWord_encodeFields hwf, hi]

end Sys2Proof

namespace Sys2Proof.Proofs

/-- Settles O2: the two bytes make the instruction's word again (`wordOfBytes_bytes`), which decodes to the instruction
(`decodeWord_encode`). -/
theorem decodeBytesOfEncodeIsIdentity : Obligations.DecodeBytesOfEncodeIsIdentity := by
  intro i rest
  show (decodeWord (wordOfBytes (highByte (encode i)) (lowByte (encode i)))).map (fun j => (j, rest)) = some (i, rest)
  rw [wordOfBytes_bytes, decodeWord_encode, Option.map_some]

end Sys2Proof.Proofs
end

section
/-! The accessors of Memory (20_memory.md): what a byte write, a range write and the opcode fetch do inside and outside
Memory, and a fetch from bytes that a block store has just written. -/

namespace Sys2Proof.Machine

/-- A range write that fits, or has no bytes, as the state it leaves (20_memory.md R54). -/
theorem memWriteRange_fits {start : Nat} {bytes : List Byte} (h : bytes = [] ∨ start + bytes.length ≤ 4096)
    (s : State) :
    memWriteRange start bytes s = .done
      { s with
        mem := s.mem.setRange start bytes
        outputs := s.outputs ++ rangeEvent start bytes.length } := by
  obtain rfl | hin := h
  · simp [memWriteRange, rangeEvent, Memory.setRange]
  · simp [memWriteRange_inside hin, rangeEvent]

/-- A byte of a span reads as written after the range write. -/
theorem Memory.get_setRange_add (m : Memory) (start : Nat) {bytes : List Byte} {k : Nat} (h : k < bytes.length) :
    (m.setRange start bytes).get (start + k) = bytes.getD k 0 := by
  rw [Memory.get_setRange, if_pos (by omega), Nat.add_sub_cancel_left]

/-- A byte outside a span reads as before the range write. -/
theorem Memory.get_setRange_other (m : Memory) {start : Nat} {bytes : List Byte} {a : Nat}
    (h : a < start ∨ start + bytes.length ≤ a) : (m.setRange start bytes).get a = m.get a := by
  rw [Memory.get_setRange, if_neg (by omega)]

/-- `LD [I], Vx` with its span inside Memory completes, and Memory is as the range write of V0 to Vx leaves it
(40_data_ops.md R123). -/
theorem mem_of_exec_storeRegs {x : RegIx} {s t : State} (hin : s.cpu.i.toNat + x.val < 4096)
    (h : exec (.storeRegs x) s = .next t) : t.mem = s.mem.setRange s.cpu.i.toNat (regsUpTo x s) := by
  have hfit : s.cpu.i.toNat + (regsUpTo x s).length ≤ 4096 := by rw [length_regsUpTo]; omega
  rw [exec, execStoreRegs, memWriteRange_inside hfit, map_done, settle_done, blockIndexUpdate_eq] at h
  cases h
  rfl

/-- A register that `LD [I], Vx` stores is the byte that Memory then holds for it. -/
theorem get_of_exec_storeRegs {x : RegIx} {s t : State} (hin : s.cpu.i.toNat + x.val < 4096)
    (h : exec (.storeRegs x) s = .next t) {k : RegIx} (hk : k ≤ x) :
    t.mem.get (s.cpu.i.toNat + k.val) = s.cpu.v.get k := by
  have hk : k.val ≤ x.val := hk
  rw [mem_of_exec_storeRegs hin h, Memory.get_setRange_add _ _ (by rw [length_regsUpTo]; omega),
    getD_regsUpTo x k hk]
  rfl

end Sys2Proof.Machine

namespace Sys2Proof.Proofs

open Sys2Proof.Machine

/-- Settles O6: the two cases of the fetch, and at 4095 the first byte outside is the second one. -/
theorem fetchIsBigEndian : Obligations.FetchIsBigEndian := by
  intro a s
  refine ⟨fun h => ⟨_, memReadWord_inside h s, toNat_wordOfBytes ..⟩, fun h => ?_, fun h => ?_⟩
  · subst h
    exact memReadWord_outside le_rfl s
  · rw [memReadWord_outside (by omega), max_eq_left h]

/-- Settles O36: the write inside Memory is one update, whose bytes read as `Memory.get_set` says; a read at another
address looks at one unchanged byte, or at none. -/
theorem byteWriteThenRead : Obligations.ByteWriteThenRead := by
  intro a v s
  refine ⟨fun h => ⟨_, memWrite_inside h v s, ?_, fun b hb => ?_, rfl⟩,
    fun h => ⟨memRead_outside h s, memWrite_outside h v s⟩⟩
  · rw [memRead_inside h, Memory.get_set_same]
  · unfold memRead
    rw [Memory.get_set_other _ _ hb]

/-- Settles O37: a range write that fits is one update, and one that does not raises before it. -/
theorem rangeWriteIsAllOrNothing : Obligations.RangeWriteIsAllOrNothing := by
  intro start bytes s
  refine ⟨fun h => ⟨_, memWriteRange_fits h s, fun k hk => ?_, fun a ha => ?_, rfl⟩, fun ⟨hne, hout⟩ => ?_⟩
  · exact Memory.get_setRange_add _ start hk
  · exact Memory.get_setRange_other _ ha
  · exact memWriteRange_outside hne hout s

/-- Settles O38: the two bytes at PC are those that the store wrote for V[k] and V[l]. -/
theorem storedWordIsFetchedNext : Obligations.StoredWordIsFetchedNext := by
  intro x k l s t hin h hl hlx hpc
  have hlx' : l.val ≤ x.val := hlx
  have hkx : k ≤ x := Fin.le_def.2 (by omega)
  have hpc' : t.cpu.pc.toNat + 1 = s.cpu.i.toNat + l.val := by omega
  refine ⟨by omega, ?_⟩
  rw [hpc', hpc, get_of_exec_storeRegs hin h hkx, get_of_exec_storeRegs hin h hlx]

end Sys2Proof.Proofs
end

section
/-! Outputs are only appended (20_memory.md R55, 60_exceptions.md R229): a step does the same whatever was put out before
it (`step_withEarlier`), so it leaves the outputs it finds in front of its own. -/

namespace Sys2Proof.Machine

/-- A next state with earlier outputs in front begins with them. -/
theorem outputs_of_resultWithEarlier {earlier : List Output} {r : Result} {t : State}
    (h : resultWithEarlier earlier r = .next t) : ∃ later, t.outputs = earlier ++ later := by
  cases r with
  | next u => cases h; exact ⟨u.outputs, rfl⟩
  | fault | refused => cases h

end Sys2Proof.Machine

namespace Sys2Proof.Proofs

open Sys2Proof.Machine

/-- Settles O53: `s` is a state with no outputs yet, with all of `s`'s outputs put in front. -/
theorem outputsAreOnlyAppended : Obligations.OutputsAreOnlyAppended := by
  intro s t h
  have hs : s = State.withEarlier s.outputs { s with outputs := [] } := by simp [State.withEarlier]
  rw [hs, step_withEarlier] at h
  exact outputs_of_resultWithEarlier h

end Sys2Proof.Proofs
end

section
/-! The catalog as a table of rows (30_encoding.md R84, R85, R88): a word matches a row exactly when it is the word of
that row and some operands in range, and what the decoder answers is of a row that the word matches. From these and
`decodeWord_encodeFields` the statements about the decoder follow. -/

namespace Sys2Proof

/-! ## The instruction of a row and its fields -/

@[simp] theorem Op.op_instr (r : Op) (f : Fields) : (r.instr f).op = r := by
  cases r <;> rfl

theorem Op.fields_instr (r : Op) (f : Fields) :
    (r.instr f).fields = ⟨f.x % r.format.limits.x, f.y % r.format.limits.y, f.n % r.format.limits.n,
      f.kk % r.format.limits.kk, f.nnn % r.format.limits.nnn⟩ := by
  cases r <;> simp [Op.instr, Instr.fields, Op.format, Format.limits, Nat.mod_one]

/-- Fields in range are kept as they are. -/
theorem Op.fields_instr_of_wellFormed {r : Op} {f : Fields} (h : f.wellFormed r.format = true) :
    (r.instr f).fields = f := by
  obtain ⟨hx, hy, hn, hkk, hnnn⟩ := Fields.bounds h
  rw [Op.fields_instr, Nat.mod_eq_of_lt hx, Nat.mod_eq_of_lt hy, Nat.mod_eq_of_lt hn, Nat.mod_eq_of_lt hkk,
    Nat.mod_eq_of_lt hnnn]

/-! ## Matching a row -/

/-- How many low bits of a word the mask of a format keeps, beside the top four (30_encoding.md R81, R85). -/
def Format.maskedLow : Format → Nat
  | .fixed => 12
  | .nnn | .xkk | .xyn => 0
  | .xy => 4
  | .x => 8

theorem Op.toNat_mask (r : Op) : r.mask.toNat = 15 * 4096 + (2 ^ r.format.maskedLow - 1) := by
  cases r <;> rfl

theorem Format.maskedLow_le (fmt : Format) : fmt.maskedLow ≤ 12 := by
  cases fmt <;> decide

/-- A word under a mask that keeps the top four bits and the `k` lowest. -/
theorem and_mask (w k : Nat) (hw : w < 65536) (hk : k ≤ 12) :
    w &&& (15 * 4096 + (2 ^ k - 1)) = w / 4096 * 4096 + w % 2 ^ k := by
  have hm : 2 ^ k - 1 < 2 ^ 12 := by
    have := Nat.pow_le_pow_right (n := 2) (by decide) hk
    omega
  have hhigh : (w &&& (15 * 4096 + (2 ^ k - 1))) / 2 ^ 12 = w / 4096 := by
    rw [Nat.and_div_two_pow, show (15 * 4096 + (2 ^ k - 1)) / 2 ^ 12 = 2 ^ 4 - 1 by omega,
      Nat.and_two_pow_sub_one_eq_mod]
    omega
  have hlow : (w &&& (15 * 4096 + (2 ^ k - 1))) % 2 ^ 12 = w % 2 ^ k := by
    rw [Nat.and_mod_two_pow, show (15 * 4096 + (2 ^ k - 1)) % 2 ^ 12 = 2 ^ k - 1 by omega,
      Nat.and_two_pow_sub_one_eq_mod, Nat.mod_mod_of_dvd _ (Nat.pow_dvd_pow 2 hk)]
  omega

/-- "A word matches a row" (30_encoding.md R84) as numbers: the match value is the category and the masked low bits. -/
theorem Op.matches_iff (r : Op) (op : Word) :
    r.matches op = true ↔ category op * 4096 + op.toNat % 2 ^ r.format.maskedLow = r.matchBits.toNat := by
  rw [Op.matches, beq_iff_eq, ← BitVec.toNat_inj, BitVec.toNat_and, Op.toNat_mask,
    and_mask _ _ op.isLt r.format.maskedLow_le, category_eq]

/-- The operand fields of a format read off a word (30_encoding.md R82). -/
def Format.read (op : Word) : Format → Fields
  | .fixed => {}
  | .nnn => { nnn := op.toNat % 4096 }
  | .xkk => { x := op.toNat / 256 % 16, kk := op.toNat % 256 }
  | .xy => { x := op.toNat / 256 % 16, y := op.toNat / 16 % 16 }
  | .xyn => { x := op.toNat / 256 % 16, y := op.toNat / 16 % 16, n := op.toNat % 16 }
  | .x => { x := op.toNat / 256 % 16 }

theorem Format.read_wellFormed (fmt : Format) (op : Word) : (fmt.read op).wellFormed fmt = true := by
  cases fmt <;> simp [Format.read, Fields.wellFormed, Format.limits, Nat.mod_lt]

/-- A word that matches a row is the word of the row and the fields read off it. -/
theorem encodeFields_read_of_matches {r : Op} {op : Word} (h : r.matches op = true) :
    encodeFields r (r.format.read op) = op := by
  have hm := (r.matches_iff op).mp h
  rw [category_eq] at hm
  apply BitVec.eq_of_toNat_eq
  rw [toNat_encodeFields _ _ (Format.read_wellFormed _ _)]
  cases hf : r.format <;> rw [hf] at hm <;> simp only [Format.maskedLow, Format.read] at hm ⊢ <;> omega

/-- A word that matches a row decodes to that row's instruction. -/
theorem decodeWord_of_matches {r : Op} {op : Word} (h : r.matches op = true) :
    decodeWord op = some (r.instr (r.format.read op)) := by
  have hd := decodeWord_encodeFields (r.format.read_wellFormed op)
  rwa [encodeFields_read_of_matches h] at hd

/-! ## What the decoder answers -/

/-- In category 0x8 the low nibble is the rest of the row's match value. -/
theorem decode8_eq_some {op : Word} {i : Instr} (h : decode8 op = some i) :
    i.op.format = .xy ∧ 8 * 4096 + op.toNat % 16 = i.op.matchBits.toNat := by
  rw [← toNat_fieldN]
  unfold decode8 at h
  split at h <;> cases h <;> exact ⟨rfl, by simp [Instr.op, Op.matchBits, *]⟩

/-- In category 0xE the low byte is the rest of the row's match value. -/
theorem decodeE_eq_some {op : Word} {i : Instr} (h : decodeE op = some i) :
    i.op.format = .x ∧ 14 * 4096 + op.toNat % 256 = i.op.matchBits.toNat := by
  rw [← toNat_fieldKk]
  unfold decodeE at h
  split_ifs at h <;> cases h <;> exact ⟨rfl, by simp [Instr.op, Op.matchBits, *]⟩

/-- In category 0xF the low byte is the rest of the row's match value. -/
theorem decodeF_eq_some {op : Word} {i : Instr} (h : decodeF op = some i) :
    i.op.format = .x ∧ 15 * 4096 + op.toNat % 256 = i.op.matchBits.toNat := by
  rw [← toNat_fieldKk]
  unfold decodeF at h
  split_ifs at h <;> cases h <;> exact ⟨rfl, by simp [Instr.op, Op.matchBits, *]⟩

theorem category_lt (op : Word) : category op < 16 := by
  have := op.isLt
  rw [category_eq]
  omega

/-- What a word decodes to is an instruction of a row that the word matches: each branch of the decoder fixes the
category, and the nibble or the byte that the row's mask keeps. -/
theorem matches_of_decodeWord {op : Word} {i : Instr} (h : decodeWord op = some i) : i.op.matches op = true := by
  rw [Op.matches_iff]
  unfold decodeWord at h
  split at h
  -- category 0x0
  case h_1 hc =>
    rw [hc]
    split_ifs at h with hcls hret <;> cases h
    · rw [hcls]
      rfl
    · rw [hret]
      rfl
  -- categories 0x5 and 0x9
  case h_6 hc | h_10 hc =>
    split_ifs at h with hn
    cases h
    have hlow : op.toNat % 16 = 0 := by rw [← toNat_fieldN, hn]; rfl
    simp [hc, Instr.op, Op.format, Format.maskedLow, Op.matchBits, hlow]
  -- category 0x8
  case h_9 hc =>
    obtain ⟨hr, hm⟩ := decode8_eq_some h
    rwa [hc, hr]
  -- category 0xE
  case h_15 hc =>
    obtain ⟨hr, hm⟩ := decodeE_eq_some h
    rwa [hc, hr]
  -- category 0xF
  case h_16 hc =>
    obtain ⟨hr, hm⟩ := decodeF_eq_some h
    rwa [hc, hr]
  -- the default answers nothing
  case h_17 => cases h
  -- the categories of one row each
  all_goals
    cases h
    simp [*, Instr.op, Op.format, Format.maskedLow, Op.matchBits, Nat.mod_one]

/-! ## The words that are no instruction -/

theorem ite_some_eq_none {α : Type} {p : Prop} [Decidable p] {a : α} {x : Option α} :
    (if p then some a else x) = none ↔ ¬p ∧ x = none := by
  split <;> simp [*]

theorem decode8_eq_none (op : Word) :
    decode8 op = none ↔ op.toNat % 16 ∈ [0x8, 0x9, 0xA, 0xB, 0xC, 0xD, 0xF] := by
  have hlt := (fieldN op).isLt
  rw [← toNat_fieldN, decode8]
  generalize (fieldN op).toNat = n at hlt ⊢
  interval_cases n <;> simp

theorem decodeE_eq_none (op : Word) : decodeE op = none ↔ op.toNat % 256 ∉ [0x9E, 0xA1] := by
  simp [decodeE, ite_some_eq_none, ← toNat_fieldKk, ← BitVec.toNat_inj]

theorem decodeF_eq_none (op : Word) :
    decodeF op = none ↔ op.toNat % 256 ∉ [0x07, 0x0A, 0x15, 0x18, 0x1E, 0x29, 0x33, 0x55, 0x65] := by
  simp [decodeF, ite_some_eq_none, ← toNat_fieldKk, ← BitVec.toNat_inj]

end Sys2Proof

namespace Sys2Proof.Machine

/-- Inside a tick a word that is fetched and decodes is executed, and the Oscillator's part follows. -/
theorem step_decoded {s : State} {op : Word} {i : Instr} (htick : inTick s) (hfetch : fetches s op)
    (hdecode : decodeWord op = some i) : step s = afterExec (exec i s) :=
  step_execute htick (by rw [fetchPhase_inside hfetch, decodePhase, hdecode])

end Sys2Proof.Machine

namespace Sys2Proof.Proofs

open Sys2Proof.Machine

/-- Settles O1: a word that decodes matches the row of its instruction (`matches_of_decodeWord`), so it is the word of
that row and the fields read off it (`encodeFields_read_of_matches`), which are the instruction's own; the other way is
`decodeWord_encodeFields`. -/
theorem decodeAndEncodeRoundTrip : Obligations.DecodeAndEncodeRoundTrip := by
  refine ⟨fun op i h => ?_, fun r f h => ?_⟩
  · have hmatch := matches_of_decodeWord h
    have hi : i = i.op.instr (i.op.format.read op) :=
      Option.some.inj (h.symm.trans (decodeWord_of_matches hmatch))
    have hfields : i.fields = i.op.format.read op := by
      rw [hi, Op.fields_instr_of_wellFormed (Format.read_wellFormed ..), Op.op_instr]
    rw [encode, hfields, encodeFields_read_of_matches hmatch]
  · exact ⟨r.instr f, if_pos h, r.op_instr f, Op.fields_instr_of_wellFormed h, decodeWord_encodeFields h⟩

/-- Settles O3: a word that matches a row decodes to that row's instruction (`decodeWord_of_matches`), and what a word
decodes to is of a row it matches (`matches_of_decodeWord`). -/
theorem catalogMatchesAtMostOneRow : Obligations.CatalogMatchesAtMostOneRow := by
  refine fun op => ⟨fun r r' h h' => ?_, ⟨fun hnone r => ?_, fun hrows => ?_⟩, fun i => matches_of_decodeWord⟩
  · have hinstr := (decodeWord_of_matches h).symm.trans (decodeWord_of_matches h')
    simpa using congrArg (Option.map Instr.op) hinstr
  · refine Bool.eq_false_iff.mpr fun h => ?_
    simp [decodeWord_of_matches h] at hnone
  · refine Option.eq_none_iff_forall_ne_some.mpr fun i h => ?_
    have hmatch := matches_of_decodeWord h
    simp [hrows] at hmatch

/-- Settles O4, category by category: five of the sixteen hold words that are no instruction by a test on the word or
on its low bits, the two that the spec lists by low byte and the one by low nibble through their own decoders. -/
theorem illegalWordsAreTheListedOnes : Obligations.IllegalWordsAreTheListedOnes := by
  intro op
  rw [← category_eq, decodeWord]
  split
  -- category 0x0
  case h_1 hc => simp [hc, ite_some_eq_none, ← BitVec.toNat_inj]
  -- categories 0x5 and 0x9
  case h_6 hc | h_10 hc => simp [hc, ← toNat_fieldN, ← BitVec.toNat_inj]
  -- categories 0x8, 0xE and 0xF
  case h_9 hc => simp [hc, decode8_eq_none]
  case h_15 hc => simp [hc, decodeE_eq_none]
  case h_16 hc => simp [hc, decodeF_eq_none]
  -- there is no category past 0xF
  case h_17 =>
    have hlt := category_lt op
    simp only [imp_false] at *
    omega
  -- the categories of one row each
  all_goals simp [*]

/-- Settles O5: each word is the encoder's word of the instruction it stands for. -/
theorem sampleWordsDecode : Obligations.SampleWordsDecode :=
  ⟨decodeWord_encode .cls, decodeWord_encode .ret, decodeWord_encode (.call 0xABC),
    decodeWord_encode (.seImm 0xA 0x42), decodeWord_encode (.addReg 0xA 0xB), decodeWord_encode (.shr 1 2),
    decodeWord_encode (.drw 1 2 3), decodeWord_encode (.ldStVx 1), decodeWord_encode (.sknp 1),
    decodeWord_encode (.loadRegs 1), decodeWord_encode (.rnd 0 0xFF)⟩

/-- Settles O7: `step_decoded`, with `afterExec` written out. -/
theorem stepRunsTheDecodedInstruction : Obligations.StepRunsTheDecodedInstruction :=
  fun _ _ _ => step_decoded

end Sys2Proof.Proofs
end

section
/-! The data operations (40_data_ops.md) and the index operations (45_misc_ops.md R191, R192): an instruction whose
meaning is one register write, one result with its flag, or one write of I; and the two block transfers, inside and
outside Memory. The instructions that name no fault (60_exceptions.md R200) complete. -/

namespace Sys2Proof.Machine

/-! ## Instructions that write one register -/

/-- An instruction whose meaning is one register write on the advanced state writes that register only. -/
theorem writesOnly_of_setReg {i : Instr} {s : State} {x : RegIx} {b : Byte}
    (h : exec i s = .next (setReg x b (advance s))) : writesOnly i s x b :=
  ⟨s.cpu.v.set x.val b x.isLt, h, fun k => get_set_reg s.cpu.v x k b⟩

/-! ## Instructions that write a result and its flag -/

theorem toNat_flagByte (b : Bool) : (flagByte b).toNat = b.toNat := by cases b <;> rfl

/-- The flag of a comparison, as a number. -/
theorem toNat_flagByte_decide (p : Prop) [Decidable p] : (flagByte (decide p)).toNat = if p then 1 else 0 := by
  rw [toNat_flagByte, Bool.toNat, Bool.cond_decide]

/-- The flag of a right shift is the lowest bit (40_data_ops.md R119). -/
theorem toNat_flagByte_lostRight (a : Byte) : (flagByte (lostRight a)).toNat = a.toNat % 2 := by
  rw [toNat_flagByte, lostRight, BitVec.getLsbD, Nat.toNat_testBit, pow_zero, Nat.div_one]

/-- The flag of a left shift is the highest bit (40_data_ops.md R121). -/
theorem toNat_flagByte_lostLeft (a : Byte) : (flagByte (lostLeft a)).toNat = a.toNat / 128 := by
  have ha : a.toNat < 256 := a.isLt
  rw [toNat_flagByte, lostLeft, BitVec.getLsbD, Nat.toNat_testBit]
  omega

/-- An instruction whose meaning is a result and its flag on the advanced state writes these only, the flag last
(40_data_ops.md R110 (b)). -/
theorem writesResultAndFlag_of_setResultAndFlag {i : Instr} {s : State} {x : RegIx} {b : Byte} {c : Bool}
    {result flag : Nat} (h : exec i s = .next (setResultAndFlag x b c (advance s))) (hb : b.toNat = result)
    (hc : (flagByte c).toNat = flag) : writesResultAndFlag i s x result flag := by
  refine ⟨(s.cpu.v.set x.val b x.isLt).set vf.val (flagByte c) vf.isLt, h, fun k => ?_⟩
  rw [get_set_reg, get_set_reg, apply_ite BitVec.toNat, apply_ite BitVec.toNat, hb, hc]

/-! ## Bytes and words as numbers -/

/-- The difference of two bytes is taken modulo 256 (40_data_ops.md R118, R120). -/
theorem toNat_sub_byte (a b : Byte) : (a - b).toNat = (256 + a.toNat - b.toNat) % 256 := by
  have hb := b.isLt
  rw [BitVec.toNat_sub]
  omega

theorem toNat_zext16 (a : Addr) : (zext16 a).toNat = a.toNat :=
  BitVec.toNat_setWidth_of_le (by decide)

theorem toNat_zextByte (b : Byte) : (zextByte b).toNat = b.toNat :=
  BitVec.toNat_setWidth_of_le (by decide)

/-- A digit's font address is below 2^16, so the sum does not wrap (45_misc_ops.md R192). -/
theorem toNat_fontAddress (base : Addr) (b : Byte) :
    (fontAddress base b).toNat = base.toNat + 5 * (b.toNat % 16) := by
  have hbase := base.isLt
  have hlow : (b &&& 0xF).toNat = b.toNat % 16 := by
    rw [BitVec.toNat_and]
    exact Nat.and_two_pow_sub_one_eq_mod b.toNat 4
  rw [fontAddress, hlow, BitVec.toNat_ofNat]
  omega

/-- The word recorded for an instruction whose row has an x field only (30_encoding.md R81). -/
theorem encode_of_format_x {i : Instr} (h : i.op.format = .x) :
    encode i = BitVec.ofNat 16 (i.op.matchBits.toNat + 0x100 * i.fields.x) := by
  have hwf := (Instr.fields_wellFormed_and_rebuild i).1
  obtain ⟨-, hy, hn, hkk, hnnn⟩ := Fields.bounds hwf
  rw [h] at hy hn hkk hnnn
  simp only [Format.limits] at hy hn hkk hnnn
  apply BitVec.eq_of_toNat_eq
  have hlt := (encode i).isLt
  rw [encode, toNat_encodeFields _ _ hwf] at hlt ⊢
  rw [BitVec.toNat_ofNat]
  omega

/-! ## Block transfers -/

/-- I after the index update of a block that lies inside Memory, where the sum does not wrap (40_data_ops.md R126). -/
theorem toNat_i_blockIndexUpdate {x : RegIx} {s : State} (h : s.cpu.i.toNat + x.val < 4096) :
    (blockIndexUpdate x s).cpu.i.toNat =
      if s.cfg.modifyI then s.cpu.i.toNat + x.val + 1 else s.cpu.i.toNat := by
  rw [blockIndexUpdate_eq, setI_i, apply_ite BitVec.toNat, BitVec.toNat_add, BitVec.toNat_ofNat]
  congr 1
  omega

theorem regsUpTo_ne_nil (x : RegIx) (s : State) : regsUpTo x s ≠ [] :=
  List.ne_nil_of_length_eq_add_one (length_regsUpTo x s)

/-- `LD [I], Vx` with its span inside Memory: the bytes and their one notification, then the index update
(40_data_ops.md R123). -/
theorem exec_storeRegs_inside {x : RegIx} {s : State} (h : s.cpu.i.toNat + x.val < 4096) :
    exec (.storeRegs x) s = .next
      { s with
        mem := s.mem.setRange s.cpu.i.toNat (regsUpTo x s)
        cpu := { s.cpu with i := (blockIndexUpdate x s).cpu.i, pc := s.cpu.pc + 2 }
        outputs := s.outputs ++ [.memoryRangeModified s.cpu.i.toNat (s.cpu.i.toNat + x.val)] } := by
  have hl := length_regsUpTo x s
  rw [exec, execStoreRegs, memWriteRange_inside (by omega), if_neg (regsUpTo_ne_nil x s), hl, map_done, settle_done,
    blockIndexUpdate_eq, blockIndexUpdate_eq]
  rfl

/-- `LD [I], Vx` whose span runs out of Memory: the halt sequence, before any byte is stored (40_data_ops.md R123). -/
theorem exec_storeRegs_outside {x : RegIx} {s : State} (h : 4096 ≤ s.cpu.i.toNat + x.val) :
    exec (.storeRegs x) s = .next
      (haltedState s ⟨.outOfRange, some (encode (.storeRegs x)), s.cpu.pc, some (max s.cpu.i.toNat 4096)⟩) := by
  have hl := length_regsUpTo x s
  rw [exec, execStoreRegs, memWriteRange_outside (regsUpTo_ne_nil x s) (by omega), map_raise, settle_raise]

/-- `LD Vx, [I]` with its span inside Memory: the registers from V0 upward, then the index update (40_data_ops.md
R124). -/
theorem exec_loadRegs_inside {x : RegIx} {s : State} (h : s.cpu.i.toNat + x.val < 4096) :
    exec (.loadRegs x) s = .next
      { s with cpu :=
        { s.cpu with
          v := (setRegsFrom 0 ((List.range (x.val + 1)).map fun k => s.mem.get (s.cpu.i.toNat + k))
            (advance s)).cpu.v
          i := (blockIndexUpdate x s).cpu.i
          pc := s.cpu.pc + 2 } } := by
  rw [exec, execLoadRegs, memReadSpan_inside (by omega), map_done, settle_done, setRegsFrom_eq,
    blockIndexUpdate_eq, blockIndexUpdate_eq]
  rfl

/-- `LD Vx, [I]` whose span runs out of Memory: the halt sequence, before any register is loaded (40_data_ops.md
R124). -/
theorem exec_loadRegs_outside {x : RegIx} {s : State} (h : 4096 ≤ s.cpu.i.toNat + x.val) :
    exec (.loadRegs x) s = .next
      (haltedState s ⟨.outOfRange, some (encode (.loadRegs x)), s.cpu.pc, some (max s.cpu.i.toNat 4096)⟩) := by
  rw [exec, execLoadRegs, memReadSpan_outside (by omega) (by omega), map_raise, settle_raise]

/-- The registers after V0 to Vx have been written in ascending order. -/
theorem reg_setRegsFrom_range (f : Nat → Byte) (x k : RegIx) (s : State) :
    reg k (setRegsFrom 0 ((List.range (x.val + 1)).map f) s) = if k ≤ x then f k.val else reg k s := by
  rw [reg_setRegsFrom, List.length_map, List.length_range]
  by_cases hk : k.val ≤ x.val
  · rw [if_pos (by omega), if_pos (Fin.le_def.2 hk), List.getD_eq_getElem _ _ (by simp; omega)]
    simp
  · rw [if_neg (by omega), if_neg (mt Fin.le_def.1 hk)]

end Sys2Proof.Machine

namespace Sys2Proof.Proofs

open Sys2Proof.Machine

/-- Settles O12: the six forms of R200 are excluded; every other form completes with an update that does not write the
Oscillator, whatever the branch of a skip, of a write to ST or of a key wait. -/
theorem onlySixInstructionsCanFault : Obligations.OnlySixInstructionsCanFault := by
  intro i s hop
  cases i
  case call | ret | drw | ldB | storeRegs | loadRegs => exact absurd (by simp [Instr.op]) hop
  case seImm | sneImm | seReg | sneReg | skp | sknp => exact ⟨_, rfl, skipIf_osc ..⟩
  case ldStVx => exact ⟨_, rfl, writeSt_osc ..⟩
  case ldVxK => exact ⟨_, rfl, by split <;> rfl⟩
  all_goals exact ⟨_, rfl, rfl⟩

/-- Settles O20: inside Memory the bytes are those of the range write, read back one by one; outside, the word recorded
is the instruction's own. -/
theorem blockStoreWritesV0ToVx : Obligations.BlockStoreWritesV0ToVx := by
  intro x s
  refine ⟨fun h => ?_, fun h => ?_⟩
  · have he := exec_storeRegs_inside h
    have hl := length_regsUpTo x s
    exact ⟨_, he, fun k hk => get_of_exec_storeRegs h he hk,
      fun a ha => Memory.get_setRange_other s.mem (by omega), toNat_i_blockIndexUpdate h, rfl⟩
  · rw [exec_storeRegs_outside h, encode_of_format_x rfl]
    rfl

/-- Settles O21: inside Memory the registers are those written in ascending order; outside, the word recorded is the
instruction's own. -/
theorem blockLoadReadsV0ToVx : Obligations.BlockLoadReadsV0ToVx := by
  intro x s
  refine ⟨fun h => ?_, fun h => ?_⟩
  · exact ⟨_, _, exec_loadRegs_inside h,
      fun k => reg_setRegsFrom_range (fun j => s.mem.get (s.cpu.i.toNat + j)) x k (advance s),
      toNat_i_blockIndexUpdate h⟩
  · rw [exec_loadRegs_outside h, encode_of_format_x rfl]
    rfl

/-- Settles O14: each of the five is one register write. -/
theorem movesAndBitwiseWriteVx : Obligations.MovesAndBitwiseWriteVx := fun _ _ _ _ =>
  ⟨writesOnly_of_setReg rfl, writesOnly_of_setReg rfl, writesOnly_of_setReg rfl, writesOnly_of_setReg rfl,
    writesOnly_of_setReg rfl⟩

/-- Settles O15: one register write, of a byte sum. -/
theorem addImmediateWrapsWithoutFlag : Obligations.AddImmediateWrapsWithoutFlag := by
  intro x kk s
  obtain ⟨v, he, hv⟩ : writesOnly (.addImm x kk) s x (reg x s + kk) := writesOnly_of_setReg rfl
  refine ⟨v, he, fun k => ?_⟩
  rw [hv, apply_ite BitVec.toNat, BitVec.toNat_add]
  rfl

/-- Settles O16: the result is the byte sum, the flag the comparison of the exact sum with 255. -/
theorem addRegistersCarriesIntoVF : Obligations.AddRegistersCarriesIntoVF := fun x y s =>
  writesResultAndFlag_of_setResultAndFlag rfl (BitVec.toNat_add (reg x s) (reg y s)) (toNat_flagByte_decide _)

/-- Settles O17: the result is the byte difference, the flag the comparison of the two operands. -/
theorem subtractionsFlagNoBorrow : Obligations.SubtractionsFlagNoBorrow := by
  intro x y s
  exact ⟨
    writesResultAndFlag_of_setResultAndFlag rfl (toNat_sub_byte (reg x s) (reg y s)) (toNat_flagByte_decide _),
    writesResultAndFlag_of_setResultAndFlag rfl (toNat_sub_byte (reg y s) (reg x s)) (toNat_flagByte_decide _)⟩

/-- Settles O18: a shift by one is a halving or a doubling, and the flag is the bit it loses. -/
theorem shiftsPutTheLostBitInVF : Obligations.ShiftsPutTheLostBitInVF := by
  intro x y s
  have hright : (reg x s >>> 1).toNat = (reg x s).toNat / 2 := BitVec.toNat_ushiftRight ..
  have hleft : (reg x s <<< 1).toNat = (reg x s).toNat * 2 % 256 := by
    rw [BitVec.toNat_shiftLeft, Nat.shiftLeft_eq, pow_one]
  exact ⟨writesResultAndFlag_of_setResultAndFlag rfl hright (toNat_flagByte_lostRight _),
    writesResultAndFlag_of_setResultAndFlag rfl hleft (toNat_flagByte_lostLeft _)⟩

/-- Settles O19: each of the three writes one word to I, which is a zero extension, a sum of words, and a sum below
2^16. -/
theorem indexInstructionsWriteI : Obligations.IndexInstructionsWriteI := by
  intro x nnn s
  refine ⟨⟨_, rfl, toNat_zext16 nnn⟩, ⟨_, rfl, ?_⟩, ⟨_, rfl, toNat_fontAddress ..⟩⟩
  rw [BitVec.toNat_add, toNat_zextByte]
  rfl

end Sys2Proof.Proofs
end

section
/-! The control operations (41_control_ops.md): the skips by the comparison they make, `CALL` and `RET` by the stack
entry they write or read and by their faults, and a `RET` after a `CALL`. -/

namespace Sys2Proof.Machine

/-! ## Jumps and skips -/

/-- The sum of an address and a byte is below 2^16, so it does not wrap (41_control_ops.md R144). -/
theorem toNat_zext16_add_zextByte (a : Addr) (b : Byte) : (zext16 a + zextByte b).toNat = a.toNat + b.toNat := by
  have ha := a.isLt
  have hb := b.isLt
  rw [BitVec.toNat_add, toNat_zext16, toNat_zextByte]
  omega

/-- A skip changes PC only, by 4 if its condition holds and by 2 otherwise (41_control_ops.md R140). -/
theorem skipIf_advance {c : Bool} {p : Prop} [Decidable p] (h : c = true ↔ p) (s : State) :
    skipIf c (advance s) = withPc s (if p then s.cpu.pc + 4 else s.cpu.pc + 2) := by
  by_cases hp : p
  · rw [if_pos hp, h.2 hp, show s.cpu.pc + 4 = s.cpu.pc + 2 + 2 from (BitVec.add_assoc _ 2 2).symm]
    rfl
  · rw [if_neg hp, Bool.eq_false_iff.2 (mt h.1 hp)]
    rfl

theorem beq_iff_toNat_eq (a b : Byte) : (a == b) = true ↔ a.toNat = b.toNat :=
  beq_iff_eq.trans BitVec.toNat_inj.symm

theorem bne_iff_toNat_ne (a b : Byte) : (a != b) = true ↔ a.toNat ≠ b.toNat :=
  bne_iff_ne.trans BitVec.toNat_inj.symm.not

/-! ## The stack -/

/-- Reading a stack entry after writing one. -/
theorem get_set_entry (stack : Vector Word 16) (k j : Fin 16) (w : Word) :
    (stack.set k.val w k.isLt).get j = if j = k then w else stack.get j := by
  simp only [Vector.get_eq_getElem, Vector.getElem_set, Fin.ext_iff, eq_comm]

/-- The word of an instruction, recorded with its fault, as a number (30_encoding.md R88). -/
theorem encode_eq_ofNat (i : Instr) :
    encode i = BitVec.ofNat 16
      (i.op.matchBits.toNat + i.fields.x * 256 + i.fields.y * 16 + i.fields.n + i.fields.kk + i.fields.nnn) := by
  rw [← toNat_encodeFields i.op i.fields (Instr.fields_wellFormed_and_rebuild i).1, BitVec.ofNat_toNat,
    BitVec.setWidth_eq, encode]

theorem encode_call (nnn : Addr) : encode (.call nnn) = BitVec.ofNat 16 (0x2000 + nnn.toNat) := by
  rw [encode_eq_ofNat]
  simp [Instr.op, Instr.fields, Op.matchBits]

/-- `CALL nnn` with `k < 16` entries in use writes entry `k` (41_control_ops.md R142). -/
theorem exec_call_room {s : State} {k : Fin 16} (nnn : Addr) (h : s.cpu.sp.toNat = k.val) :
    exec (.call nnn) s = .next
      { s with cpu :=
        { s.cpu with
          stack := s.cpu.stack.set k.val (s.cpu.pc + 2) k.isLt
          sp := s.cpu.sp + 1
          pc := zext16 nnn } } := by
  have hroom : (advance s).cpu.sp.toNat < 16 := h.trans_lt k.isLt
  rw [exec, execCall, push_room _ _ hroom, map_done, settle_done]
  simp only [advance_sp, h]
  rfl

/-- `CALL nnn` with 16 entries in use: the halt sequence, before anything is pushed (41_control_ops.md R142). -/
theorem exec_call_full {s : State} (nnn : Addr) (h : s.cpu.sp = 16) :
    exec (.call nnn) s = .next (haltedState s ⟨.stackOverflow, some (encode (.call nnn)), s.cpu.pc, none⟩) := by
  rw [exec, execCall, push_full _ (advance s) h, map_raise, settle_raise]

/-- `RET` with `k + 1` entries in use reads entry `k` (41_control_ops.md R143). -/
theorem exec_ret_live {s : State} {k : Fin 16} (h : s.cpu.sp.toNat = k.val + 1) :
    exec .ret s = .next { s with cpu := { s.cpu with sp := s.cpu.sp - 1, pc := s.cpu.stack.get k } } := by
  have hne : (advance s).cpu.sp ≠ 0 := fun h0 => by
    rw [show s.cpu.sp = 0 from h0] at h
    cases h
  have htop : (advance s).cpu.sp.toNat - 1 = k.val := by rw [advance_sp, h, Nat.add_sub_cancel]
  rw [exec, execRet, pop_live _ hne (htop.trans_lt k.isLt), map_done, settle_done]
  simp only [htop]
  rfl

/-- `RET` with no entry in use: the halt sequence (41_control_ops.md R143). -/
theorem exec_ret_empty {s : State} (h : s.cpu.sp = 0) :
    exec .ret s = .next (haltedState s ⟨.stackUnderflow, some (encode .ret), s.cpu.pc, none⟩) := by
  rw [exec, execRet, pop_empty (advance s) h, map_raise, settle_raise]

end Sys2Proof.Machine

namespace Sys2Proof.Proofs

open Sys2Proof.Machine

/-- Settles O23: the push writes the entry that SP names; with no room, the word recorded is the instruction's own. -/
theorem callPushesTheReturnAddress : Obligations.CallPushesTheReturnAddress := by
  intro nnn s
  refine ⟨fun k hk => ⟨_, _, exec_call_room nnn hk, toNat_zext16 nnn, fun j => get_set_entry _ k j _⟩, fun h => ?_⟩
  rw [exec_call_full nnn h, encode_call]

/-- Settles O24: the pop reads the entry below SP; with none in use, the word recorded is the instruction's own. -/
theorem returnPopsThePC : Obligations.ReturnPopsThePC := fun _ =>
  ⟨fun _ hk => exec_ret_live hk, fun h => exec_ret_empty h⟩

/-- Settles O25: the entry that the `RET` reads (`returnPopsThePC`) is the one that the `CALL` wrote
(`callPushesTheReturnAddress`). -/
theorem returnResumesAfterTheCall : Obligations.ReturnResumesAfterTheCall := by
  intro nnn s t u hsp hcall hstack husp
  obtain ⟨k, hk⟩ : ∃ k : Fin 16, s.cpu.sp.toNat = k.val := ⟨⟨_, hsp⟩, rfl⟩
  obtain ⟨stack, w, he, -, hget⟩ := (callPushesTheReturnAddress nnn s).1 k hk
  cases hcall.symm.trans he
  have hlive : u.cpu.sp.toNat = k.val + 1 := by
    rw [husp, BitVec.toNat_add, hk]
    exact Nat.mod_eq_of_lt (show k.val + 1 < 256 by omega)
  refine ⟨_, (returnPopsThePC u).1 k hlive, ?_, ?_, hstack⟩
  · show u.cpu.stack.get k = s.cpu.pc + 2
    rw [hstack, hget, if_pos rfl]
  · show u.cpu.sp - 1 = s.cpu.sp
    rw [husp, BitVec.add_sub_cancel]

/-- Settles O22: the address is zero extended, and the sum with V0 does not wrap. -/
theorem jumpsSetPC : Obligations.JumpsSetPC := fun nnn s =>
  ⟨⟨_, rfl, toNat_zext16 nnn⟩, ⟨_, rfl, toNat_zext16_add_zextByte nnn (reg 0 s)⟩⟩

/-- Settles O26: each of the four is one skip, whose condition compares two bytes. -/
theorem skipsCompareRegisters : Obligations.SkipsCompareRegisters := fun x y kk s =>
  ⟨congrArg _ (skipIf_advance (beq_iff_toNat_eq (reg x s) kk) s),
    congrArg _ (skipIf_advance (bne_iff_toNat_ne (reg x s) kk) s),
    congrArg _ (skipIf_advance (beq_iff_toNat_eq (reg x s) (reg y s)) s),
    congrArg _ (skipIf_advance (bne_iff_toNat_ne (reg x s) (reg y s)) s)⟩

end Sys2Proof.Proofs
end

section
/-! The display operations (42_display_ops.md): `CLS` by the blank display, `DRW` by the pixels it inverts, inside and
outside Memory, and the same `DRW` twice as a consequence of one. -/

namespace Sys2Proof.Machine

/-! ## Draw -/

/-- The pixels that `DRW Vx, Vy, n` inverts in `s`, in order (42_display_ops.md R162). -/
def drwPixels (x y : RegIx) (n : Nibble) (s : State) : List (Fin 64 × Fin 32) :=
  spritePixels ((reg x s).toNat % 64) ((reg y s).toNat % 32)
    ((List.range n.toNat).map fun k => s.mem.get (s.cpu.i.toNat + k))

/-- The pixels that a draw inverts are those under a 1 bit of its sprite. -/
theorem mem_drwPixels (x y : RegIx) (n : Nibble) (s : State) (px : Fin 64) (py : Fin 32) :
    (px, py) ∈ drwPixels x y n s ↔
      covers s ((s.cpu.v.get x).toNat % 64) ((s.cpu.v.get y).toNat % 32) n.toNat s.cpu.i.toNat px py := by
  rw [drwPixels, mem_spritePixels, List.length_map, List.length_range]
  refine and_congr_right fun _ => and_congr_right fun _ => and_congr_right fun htop => and_congr_right fun hbot => ?_
  have hrow : py.val - (reg y s).toNat % 32 < n.toNat := by omega
  rw [List.getD_eq_getElem _ _ (by rwa [List.length_map, List.length_range]), List.getElem_map, List.getElem_range]
  rfl

/-- Whether a draw collides: one of the pixels it inverts is on. -/
def drwHits (x y : RegIx) (n : Nibble) (s : State) : Bool :=
  (drwPixels x y n s).any fun p => Display.get s.fb p.1 p.2

theorem drwHits_iff (x y : RegIx) (n : Nibble) (s : State) :
    drwHits x y n s = true ↔
      ∃ px py, covers s ((s.cpu.v.get x).toNat % 64) ((s.cpu.v.get y).toNat % 32) n.toNat s.cpu.i.toNat px py ∧
        Display.get s.fb px py = true := by
  simp only [drwHits, List.any_eq_true, Prod.exists, mem_drwPixels]

/-- `DRW Vx, Vy, n` with its sprite inside Memory inverts its pixels, puts each one out in order, and writes the
collision to VF (42_display_ops.md R162). -/
theorem exec_drw_inside {n : Nibble} {s : State} (x y : RegIx) (h : n = 0 ∨ s.cpu.i.toNat + n.toNat ≤ 4096) :
    ∃ fb : Display,
      exec (.drw x y n) s = .next
        { s with
          fb := fb
          cpu := { s.cpu with v := s.cpu.v.set vf.val (flagByte (drwHits x y n s)) vf.isLt, pc := s.cpu.pc + 2 }
          outputs := s.outputs ++
            (drwPixels x y n s).map fun p => .displaySetPixel p.1 p.2 (!Display.get s.fb p.1 p.2) } ∧
      ∀ px py, Display.get fb px py =
        if (px, py) ∈ drwPixels x y n s then !Display.get s.fb px py else Display.get s.fb px py := by
  have hspan : n.toNat = 0 ∨ s.cpu.i.toNat + n.toNat ≤ 4096 := h.imp_left (congrArg BitVec.toNat)
  have hframe := foldl_drawPixel_eq (drwPixels x y n s) (advance s) false
  obtain ⟨hfb, hhit, hout⟩ := foldl_drawPixel_spec (drwPixels x y n s) (nodup_spritePixels ..) (advance s) false
  refine ⟨_, ?_, hfb⟩
  rw [exec, execDrw, memReadSpan_inside hspan, map_done, settle_done]
  show Host.Outcome.next (setReg vf (flagByte ((drwPixels x y n s).foldl drawPixel (advance s, false)).2)
    ((drwPixels x y n s).foldl drawPixel (advance s, false)).1) = _
  rw [hhit, hframe, hout]
  rfl

/-- `DRW Vx, Vy, n` whose sprite runs out of Memory: the halt sequence, before any pixel is inverted
(42_display_ops.md R162). -/
theorem exec_drw_outside {n : Nibble} {s : State} (x y : RegIx) (hn : n ≠ 0) (h : 4096 < s.cpu.i.toNat + n.toNat) :
    exec (.drw x y n) s = .next
      (haltedState s ⟨.outOfRange, some (encode (.drw x y n)), s.cpu.pc, some (max s.cpu.i.toNat 4096)⟩) := by
  have hpos : 0 < n.toNat := Nat.pos_of_ne_zero fun h0 => hn (BitVec.eq_of_toNat_eq h0)
  rw [exec, execDrw, memReadSpan_outside hpos h, map_raise, settle_raise]

theorem encode_drw (x y : RegIx) (n : Nibble) :
    encode (.drw x y n) = BitVec.ofNat 16 (0xD000 + 0x100 * x.val + 0x10 * y.val + n.toNat) := by
  rw [encode_eq_ofNat, Nat.mul_comm 0x100, Nat.mul_comm 0x10]
  rfl

/-- A byte that is 1 or 0 as `p` holds or not is 1 exactly when `p` holds. -/
theorem eq_one_iff_of_flag {b : Byte} {p : Prop} (hone : p → b = 1) (hzero : ¬p → b = 0) : b = 1 ↔ p := by
  refine ⟨fun hb => by_contra fun hp => ?_, hone⟩
  rw [hzero hp] at hb
  cases hb

end Sys2Proof.Machine

namespace Sys2Proof.Proofs

open Sys2Proof.Machine

/-- Settles O28: inside Memory the pixels are those of `drwPixels`, in its order; outside, the word recorded is the
instruction's own. -/
theorem drawInvertsTheCoveredPixels : Obligations.DrawInvertsTheCoveredPixels := by
  rintro x y n s _ _ rfl rfl
  refine ⟨fun h => ?_, fun ⟨hn, h⟩ => ?_⟩
  · obtain ⟨fb, he, hfb⟩ := exec_drw_inside x y h
    have hmem := mem_drwPixels x y n s
    have hhit := drwHits_iff x y n s
    refine ⟨_, fb, _, he, hmem, pairwise_spritePixels .., fun px py hc => ?_, fun px py hc => ?_, fun hc => ?_,
      fun hc => ?_, fun k hk => ?_⟩
    · rw [hfb, if_pos ((hmem px py).2 hc)]
    · rw [hfb, if_neg (mt (hmem px py).1 hc)]
    · rw [get_set_reg, if_pos rfl, hhit.2 hc]
      rfl
    · rw [get_set_reg, if_pos rfl, Bool.eq_false_iff.2 (mt hhit.1 hc)]
      rfl
    · rw [get_set_reg, if_neg hk]
  · rw [exec_drw_outside x y hn h, encode_drw]

/-- Settles O29: the second draw reads the same I, sprite and coordinates, so it covers the same pixels, and each is
inverted twice (`drawInvertsTheCoveredPixels`, for each draw). -/
theorem drawTwiceRestoresTheDisplay : Obligations.DrawTwiceRestoresTheDisplay := by
  intro x y n s t x0 y0 hx hy hin hx0 hy0 ht
  obtain ⟨v, fb, ps, he, -, -, hcov, hrest, hone, hzero, hv⟩ :=
    (drawInvertsTheCoveredPixels x y n s x0 y0 hx0 hy0).1 hin
  have hsecond := drawInvertsTheCoveredPixels x y n t x0 y0
  cases ht.symm.trans he
  rw [← hv x hx] at hx0
  rw [← hv y hy] at hy0
  obtain ⟨v', fb', ps', he', -, -, hcov', hrest', hone', hzero', -⟩ := (hsecond hx0 hy0).1 hin
  refine ⟨_, he', fun px py => ?_, eq_one_iff_of_flag hone hzero, (eq_one_iff_of_flag hone' hzero').trans ?_⟩
  · by_cases hc : covers s x0 y0 n.toNat s.cpu.i.toNat px py
    · exact (hcov' px py hc).trans (by rw [hcov px py hc, Bool.not_not])
    · exact (hrest' px py hc).trans (hrest px py hc)
  · refine exists_congr fun px => exists_congr fun py => and_congr_right fun hc => ?_
    show Display.get fb px py = true ↔ _
    rw [hcov px py hc, Bool.not_eq_true']

/-- Settles O27: the meaning of `CLS` is the blank display and its one Clear on the advanced state. -/
theorem clearTurnsEveryPixelOff : Obligations.ClearTurnsEveryPixelOff := by
  obtain ⟨-, -, hblank⟩ := initial_registers
  exact fun _ => ⟨Display.blank, rfl, hblank⟩

end Sys2Proof.Proofs
end

section
/-! The timer operations (43_timer_ops.md): the two moves of DT, and the write of ST by its transition between 0 and
non-zero, which alone decides the call on the Buzzer. -/

namespace Sys2Proof.Machine

/-! ## The transitions of ST (60_exceptions.md R231) -/

/-- ST going from 0 to non-zero starts the Buzzer, with one Play. -/
theorem writeSt_of_start {s : State} {b : Byte} (hs : s.cpu.st = 0) (hb : b ≠ 0) :
    writeSt b s =
      { s with
        cpu := { s.cpu with st := b }
        buzzing := true
        outputs := s.outputs ++ [.buzzerPlay] } :=
  if_pos ⟨hs, hb⟩

/-- ST going from non-zero to 0 silences the Buzzer, with one Stop. -/
theorem writeSt_of_stop {s : State} {b : Byte} (hs : s.cpu.st ≠ 0) (hb : b = 0) :
    writeSt b s =
      { s with
        cpu := { s.cpu with st := b }
        buzzing := false
        outputs := s.outputs ++ [.buzzerStop] } :=
  (if_neg fun h => hs h.1).trans (if_pos ⟨hs, hb⟩)

/-- ST staying at 0, or staying non-zero, leaves the Buzzer alone. -/
theorem writeSt_of_same {s : State} {b : Byte} (h : s.cpu.st = 0 ↔ b = 0) :
    writeSt b s = { s with cpu := { s.cpu with st := b } } :=
  (if_neg fun hstart => hstart.2 (h.1 hstart.1)).trans (if_neg fun hstop => hstop.1 (h.2 hstop.2))

end Sys2Proof.Machine

namespace Sys2Proof.Proofs

open Sys2Proof.Machine

/-- Settles O30: the read of DT is one register write; the write of DT is the meaning of `LD DT, Vx` itself. -/
theorem delayTimerIsReadAndWritten : Obligations.DelayTimerIsReadAndWritten :=
  fun _ _ => ⟨writesOnly_of_setReg rfl, rfl⟩

/-- Settles O31, by the transition that the write makes: ST stays at 0 or non-zero, it starts from 0, or it stops. -/
theorem soundTimerWriteDrivesTheBuzzer : Obligations.SoundTimerWriteDrivesTheBuzzer := by
  intro x s
  have hexec : exec (.ldStVx x) s = .next (writeSt (s.cpu.v.get x) (advance s)) := rfl
  rw [hexec]
  by_cases hsame : s.cpu.st = 0 ↔ s.cpu.v.get x = 0
  · refine ⟨s.buzzing, [], ?_, fun ⟨hs, hv⟩ => absurd (hsame.1 hs) hv, fun ⟨hs, hv⟩ => absurd (hsame.2 hv) hs,
      fun _ => ⟨rfl, rfl⟩⟩
    rw [writeSt_of_same (s := advance s) hsame, List.append_nil]
    rfl
  by_cases hs : s.cpu.st = 0
  · have hv : s.cpu.v.get x ≠ 0 := fun hv => hsame (iff_of_true hs hv)
    exact ⟨true, [.buzzerPlay], congrArg _ (writeSt_of_start (s := advance s) hs hv), fun _ => ⟨rfl, rfl⟩,
      fun h => absurd hs h.1, fun h => absurd h hsame⟩
  · have hv : s.cpu.v.get x = 0 := by_contra fun hv => hsame (iff_of_false hs hv)
    exact ⟨false, [.buzzerStop], congrArg _ (writeSt_of_stop (s := advance s) hs hv), fun h => absurd h.1 hs,
      fun _ => ⟨rfl, rfl⟩, fun h => absurd h hsame⟩

end Sys2Proof.Proofs
end

section
/-! The input operations (44_input_ops.md): each as what it makes of the one level that it samples. -/

namespace Sys2Proof.Machine

/-! ## One sample -/

/-- A sample takes the level from the store and is counted; it changes nothing else (44_input_ops.md R180). -/
theorem afterKeys_eq {s : State} {keys : Word} {later : List Word} (h : samplesKeys s keys later) :
    afterKeys s = { s with env := { s.env with keyLevels := later, keySamples := s.env.keySamples + 1 } } :=
  congrArg (fun e => { s with env := e }) (nextKeys_eq h).2

/-- A key index is the low nibble (44_input_ops.md R180). -/
theorem keyIndex_eq (b : Byte) : keyIndex b = b.toNat % 16 := by
  rw [keyIndex, BitVec.toNat_and]
  exact Nat.and_two_pow_sub_one_eq_mod b.toNat 4

/-! ## Skips by a key -/

/-- `SKP Vx` skips if the key of `V[x]`'s low nibble is down (44_input_ops.md R181). -/
theorem exec_skp {s : State} {keys : Word} {later : List Word} (x : RegIx) (h : samplesKeys s keys later) :
    exec (.skp x) s = .next (withPc (afterKeys s)
      (if keys.getLsbD ((s.cpu.v.get x).toNat % 16) then s.cpu.pc + 4 else s.cpu.pc + 2)) := by
  rw [exec, execSkp, (nextKeys_eq h).1, keyIndex_eq, skipIf_advance Iff.rfl]
  rfl

/-- `SKNP Vx` skips if the key of `V[x]`'s low nibble is up (44_input_ops.md R182). -/
theorem exec_sknp {s : State} {keys : Word} {later : List Word} (x : RegIx) (h : samplesKeys s keys later) :
    exec (.sknp x) s = .next (withPc (afterKeys s)
      (if keys.getLsbD ((s.cpu.v.get x).toNat % 16) then s.cpu.pc + 2 else s.cpu.pc + 4)) := by
  rw [exec, execSknp, (nextKeys_eq h).1, keyIndex_eq, skipIf_advance Bool.not_iff_not, ite_not]
  rfl

/-! ## The wait for a key -/

/-- With no key down there is no lowest one (44_input_ops.md R183). -/
theorem lowestKey_zero : lowestKey 0 = none := by decide

/-- The lowest key is `k` when `k` is down and every key below it is up (44_input_ops.md R183). -/
theorem lowestKey_eq_some {keys : Word} {k : Nat} (hk : k < 16) (hdown : keys.getLsbD k = true)
    (hup : ∀ j, j < k → keys.getLsbD j = false) : lowestKey keys = some k :=
  List.find?_range_eq_some.2 ⟨hdown, List.mem_range.2 hk, fun j hj => by rw [keyDown, hup j hj]; rfl⟩

/-- `LD Vx, K` with no key down: PC goes back to the instruction itself (44_input_ops.md R183). -/
theorem exec_ldVxK_none {s : State} (x : RegIx) (h : lowestKey (nextKeys s.env) = none) :
    exec (.ldVxK x) s = .next (afterKeys s) := by
  rw [exec, execLdVxK, h]
  exact congrArg (fun w => Host.Outcome.next (setPc w (afterKeys s))) (BitVec.add_sub_cancel s.cpu.pc 2)

/-- `LD Vx, K` with `k` the lowest key down: one register write (44_input_ops.md R183). -/
theorem exec_ldVxK_some {s : State} {k : Nat} (x : RegIx) (h : lowestKey (nextKeys s.env) = some k) :
    exec (.ldVxK x) s = .next (withRegs (afterKeys s) (s.cpu.v.set x.val (BitVec.ofNat 8 k) x.isLt)) := by
  rw [exec, execLdVxK, h]
  rfl

end Sys2Proof.Machine

namespace Sys2Proof.Proofs

open Sys2Proof.Machine

/-- Settles O33, by the lowest key of the sampled level: there is none, or it is `k`, which fits in a byte. -/
theorem waitForKeyTakesTheLowestKey : Obligations.WaitForKeyTakesTheLowestKey := by
  intro x s keys later h
  obtain ⟨hkeys, -⟩ := nextKeys_eq h
  refine ⟨?_, fun k hk hdown hup => ?_⟩
  · rintro rfl
    rw [exec_ldVxK_none x (hkeys ▸ lowestKey_zero), afterKeys_eq h]
  · refine ⟨s.cpu.v.set x.val (BitVec.ofNat 8 k) x.isLt, ?_, fun r => ?_⟩
    · rw [exec_ldVxK_some x (hkeys ▸ lowestKey_eq_some hk hdown hup), afterKeys_eq h]
      rfl
    · rw [get_set_reg, apply_ite BitVec.toNat, BitVec.toNat_ofNat, Nat.mod_eq_of_lt (by omega)]

/-- Settles O32: each of the two is one skip, by the key of the sampled level that the low nibble names. -/
theorem keySkipsTestOneKey : Obligations.KeySkipsTestOneKey := by
  intro x s keys later h
  refine ⟨⟨_, ?_, rfl⟩, ⟨_, ?_, rfl⟩⟩
  · rw [exec_skp x h, afterKeys_eq h]
    rfl
  · rw [exec_sknp x h, afterKeys_eq h]
    rfl

end Sys2Proof.Proofs
end

section
/-! The miscellaneous operations (45_misc_ops.md): `RND` by the one byte that it draws, and `LD B` by the three digits that
it stores, inside and outside Memory. -/

namespace Sys2Proof.Machine

/-! ## One draw -/

/-- A draw takes the byte from the store and is counted; it changes nothing else (45_misc_ops.md R193). -/
theorem afterRand_eq {s : State} {b : Byte} {later : List Byte} (h : drawsRand s b later) :
    afterRand s = { s with env := { s.env with randDraws := later, randCount := s.env.randCount + 1 } } :=
  congrArg (fun e => { s with env := e }) (nextRand_eq h).2

/-- `RND Vx, kk` is one register write, of the byte drawn masked with `kk` (45_misc_ops.md R193). -/
theorem exec_rnd {s : State} {b : Byte} {later : List Byte} (x : RegIx) (kk : Byte) (h : drawsRand s b later) :
    exec (.rnd x kk) s = .next (withRegs (afterRand s) (s.cpu.v.set x.val (b &&& kk) x.isLt)) := by
  rw [exec, execRnd, (nextRand_eq h).1]
  rfl

/-! ## Three digits in Memory -/

/-- Memory with three digits written at `i`, `i + 1` and `i + 2`, in that order (45_misc_ops.md R194). -/
def Memory.setDigits (m : Memory) (i : Nat) (d : Byte × Byte × Byte) : Memory :=
  ((m.set i d.1).set (i + 1) d.2.1).set (i + 2) d.2.2

section
variable (m : Memory) (i : Nat) (d : Byte × Byte × Byte)

theorem Memory.get_setDigits_hundreds : (m.setDigits i d).get i = d.1 := by
  rw [setDigits, get_set_other _ _ (by omega), get_set_other _ _ (by omega), get_set_same]

theorem Memory.get_setDigits_tens : (m.setDigits i d).get (i + 1) = d.2.1 := by
  rw [setDigits, get_set_other _ _ (by omega), get_set_same]

theorem Memory.get_setDigits_ones : (m.setDigits i d).get (i + 2) = d.2.2 := by
  rw [setDigits, get_set_same]

theorem Memory.get_setDigits_other {a : Nat} (h : a < i ∨ i + 2 < a) : (m.setDigits i d).get a = m.get a := by
  rw [setDigits, get_set_other _ _ (by omega), get_set_other _ _ (by omega), get_set_other _ _ (by omega)]

end

/-- Three digits stored inside Memory, each notified by itself: what the later writes find is what stood there before the
first (45_misc_ops.md R194). -/
theorem storeDigits_inside {i : Nat} (h : i + 2 < 4096) (d : Byte × Byte × Byte) (s : State) :
    storeDigits i d s = .done
      { s with
        mem := s.mem.setDigits i d
        outputs := s.outputs ++ byteEvent i (s.mem.get i) d.1 ++ byteEvent (i + 1) (s.mem.get (i + 1)) d.2.1 ++
          byteEvent (i + 2) (s.mem.get (i + 2)) d.2.2 } := by
  rw [storeDigits, checkSpan_inside (.inr h), bind_done, memWrite_inside (by omega), bind_done,
    memWrite_inside (by omega), bind_done, memWrite_inside h]
  dsimp only
  rw [Memory.get_set_other _ _ (show i + 2 ≠ i + 1 by omega), Memory.get_set_other _ _ (show i + 2 ≠ i by omega),
    Memory.get_set_other _ _ (show i + 1 ≠ i by omega)]
  rfl

/-- Three digits whose span runs out of Memory: the check raises before any is stored (45_misc_ops.md R190, R194). -/
theorem storeDigits_outside {i : Nat} (h : 4096 ≤ i + 2) (d : Byte × Byte × Byte) (s : State) :
    storeDigits i d s = .raise .outOfRange (some (max i 4096)) := by
  rw [storeDigits, checkSpan_outside (by decide) (by omega), bind_raise]

/-! ## `LD B` -/

/-- Each digit of a byte fits in a byte (45_misc_ops.md R194). -/
theorem toNat_bcdDigits (v : Byte) :
    (bcdDigits v).1.toNat = v.toNat / 100 ∧ (bcdDigits v).2.1.toNat = v.toNat / 10 % 10 ∧
      (bcdDigits v).2.2.toNat = v.toNat % 10 := by
  have hv := v.isLt
  simp only [bcdDigits, BitVec.toNat_ofNat]
  omega

/-- `LD B, Vx` with its span inside Memory: the three digits and their notifications (45_misc_ops.md R194). -/
theorem exec_ldB_inside {s : State} (x : RegIx) (h : s.cpu.i.toNat + 2 < 4096) :
    exec (.ldB x) s = .next
      { s with
        mem := s.mem.setDigits s.cpu.i.toNat (bcdDigits (reg x s))
        cpu := { s.cpu with pc := s.cpu.pc + 2 }
        outputs := s.outputs ++ byteEvent s.cpu.i.toNat (s.mem.get s.cpu.i.toNat) (bcdDigits (reg x s)).1 ++
          byteEvent (s.cpu.i.toNat + 1) (s.mem.get (s.cpu.i.toNat + 1)) (bcdDigits (reg x s)).2.1 ++
          byteEvent (s.cpu.i.toNat + 2) (s.mem.get (s.cpu.i.toNat + 2)) (bcdDigits (reg x s)).2.2 } := by
  rw [exec, execLdB, storeDigits_inside h, settle_done]
  rfl

/-- `LD B, Vx` whose span runs out of Memory: the halt sequence, before any digit is stored (45_misc_ops.md R194). -/
theorem exec_ldB_outside {s : State} (x : RegIx) (h : 4096 ≤ s.cpu.i.toNat + 2) :
    exec (.ldB x) s = .next
      (haltedState s ⟨.outOfRange, some (encode (.ldB x)), s.cpu.pc, some (max s.cpu.i.toNat 4096)⟩) := by
  rw [exec, execLdB, storeDigits_outside h, settle_raise]

end Sys2Proof.Machine

namespace Sys2Proof.Proofs

open Sys2Proof.Machine

/-- Settles O35: inside Memory the three bytes are the digits, read back one by one, and their notifications speak of
these; outside, the word recorded is the instruction's own. -/
theorem bcdStoresThreeDigits : Obligations.BcdStoresThreeDigits := by
  rintro x s _ _ rfl rfl
  refine ⟨fun h => ?_, fun h => ?_⟩
  · have hhundreds := s.mem.get_setDigits_hundreds s.cpu.i.toNat (bcdDigits (reg x s))
    have htens := s.mem.get_setDigits_tens s.cpu.i.toNat (bcdDigits (reg x s))
    have hones := s.mem.get_setDigits_ones s.cpu.i.toNat (bcdDigits (reg x s))
    obtain ⟨hv100, hv10, hv1⟩ := toNat_bcdDigits (reg x s)
    refine ⟨_, exec_ldB_inside x h, (congrArg _ hhundreds).trans hv100, (congrArg _ htens).trans hv10,
      (congrArg _ hones).trans hv1, fun a ha => Memory.get_setDigits_other s.mem _ _ ha, ?_⟩
    rw [hhundreds, htens, hones]
  · rw [exec_ldB_outside x h, encode_of_format_x rfl]
    rfl

/-- Settles O34: one register write after one draw, of the byte drawn masked with `kk`. -/
theorem randomByteIsMasked : Obligations.RandomByteIsMasked := by
  intro x kk s b later h
  refine ⟨s.cpu.v.set x.val (b &&& kk) x.isLt, ?_, fun k => get_set_reg s.cpu.v x k (b &&& kk)⟩
  rw [exec_rnd x kk h, afterRand_eq h]
  rfl

end Sys2Proof.Proofs
end

section
/-! A Step and its end (60_exceptions.md R200 to R205, R225 to R228): a Step that completes goes on to the Oscillator's
part (`finishStep`), which counts it, lets the timers decay or stops; a Step that faults leaves the halt sequence on the
state in which it began, whichever phase raised the fault. -/

namespace Sys2Proof.Machine

/-! ## The timer decay -/

/-- A timer after one decay (60_exceptions.md R228). -/
def decayed (b : Byte) : Byte := if b = 0 then 0 else b - 1

theorem toNat_decayed (b : Byte) : (decayed b).toNat = b.toNat - 1 := by
  have hb := b.isLt
  unfold decayed
  split_ifs with h
  · rw [h]
    rfl
  · have hne : b.toNat ≠ 0 := fun h0 => h (BitVec.eq_of_toNat_eq h0)
    rw [toNat_sub_byte, show (1 : Byte).toNat = 1 from rfl]
    omega

/-- A decay gets to 0 from 1, and stays there. -/
theorem decayed_eq_zero_iff (b : Byte) : decayed b = 0 ↔ b = 0 ∨ b = 1 := by
  unfold decayed
  split_ifs with h
  · exact iff_of_true rfl (.inl h)
  · rw [sub_eq_zero, or_iff_right h]

theorem decayDt_eq (s : State) :
    (if s.cpu.dt = 0 then s else writeDt (s.cpu.dt - 1) s) = writeDt (decayed s.cpu.dt) s := by
  unfold decayed
  split_ifs with h
  · rw [← h]
    rfl
  · rfl

/-- The decay of ST silences the Buzzer exactly when it goes from 1 to 0 (60_exceptions.md R228, R231). -/
theorem decaySt_eq (s : State) :
    (if s.cpu.st = 0 then s else writeSt (s.cpu.st - 1) s) =
      { s with
        cpu := { s.cpu with st := decayed s.cpu.st }
        buzzing := if s.cpu.st = 1 then false else s.buzzing
        outputs := s.outputs ++ if s.cpu.st = 1 then [.buzzerStop] else [] } := by
  by_cases h0 : s.cpu.st = 0
  · have h1 : s.cpu.st ≠ 1 := by rw [h0]; decide
    rw [if_pos h0, if_neg h1, if_neg h1, List.append_nil, (decayed_eq_zero_iff _).2 (.inl h0), ← h0]
  · have hdec : s.cpu.st - 1 = decayed s.cpu.st := (if_neg h0).symm
    rw [if_neg h0, hdec]
    by_cases h1 : s.cpu.st = 1
    · rw [if_pos h1, if_pos h1, writeSt_of_stop h0 ((decayed_eq_zero_iff _).2 (.inr h1))]
    · have hsame : s.cpu.st = 0 ↔ decayed s.cpu.st = 0 := by rw [decayed_eq_zero_iff, or_iff_left h1]
      rw [if_neg h1, if_neg h1, List.append_nil, writeSt_of_same hsame]

/-- `TimerDecay()` as one update (60_exceptions.md R228). -/
theorem timerDecay_eq (s : State) :
    timerDecay s =
      { s with
        cpu := { s.cpu with dt := decayed s.cpu.dt, st := decayed s.cpu.st }
        buzzing := if s.cpu.st = 1 then false else s.buzzing
        outputs := s.outputs ++ if s.cpu.st = 1 then [.buzzerStop] else [] } := by
  unfold timerDecay
  rw [decayDt_eq]
  exact decaySt_eq _

/-! ## The end of a tick -/

theorem endTick_astable {s : State} (h : s.cfg.mode = .astable) : endTick s = timerDecay s := by
  rw [endTick, h]

theorem endTick_monostable {s : State} (h : s.cfg.mode = .monostable) :
    endTick s =
      { s with
        osc := { s.osc with runState := .stopped, tickArmed := false }
        outputs := s.outputs ++ [.cycleStepped] } := by
  rw [endTick, h]
  rfl

/-- Only the halt sequence enters Halted: the end of a tick does not. -/
theorem runState_endTick_ne_halted {s : State} (h : s.osc.runState ≠ .halted) :
    (endTick s).osc.runState ≠ .halted := by
  cases hm : s.cfg.mode with
  | astable => rwa [endTick_astable hm, timerDecay_eq]
  | monostable =>
    rw [endTick_monostable hm]
    exact nofun

theorem runState_finishStep_ne_halted {s : State} (h : s.osc.runState ≠ .halted) :
    (finishStep s).osc.runState ≠ .halted := by
  rcases hk : s.osc.stepsLeft with _ | _ | k
  · rwa [finishStep_faulted hk]
  · rw [finishStep_last hk]
    exact runState_endTick_ne_halted h
  · rwa [finishStep_more hk]

/-! ## A Step whose instruction answers a next state -/

/-- Inside a tick an instruction that answers a next state is followed by the Oscillator's part. -/
theorem step_executed {s t : State} {op : Word} {i : Instr} (htick : inTick s) (hfetch : fetches s op)
    (hdecode : decodeWord op = some i) (hexec : exec i s = .next t) : step s = .next (finishStep t) := by
  rw [step_decoded htick hfetch hdecode, hexec]
  rfl

theorem inTick_of_stepsLeft {s : State} {k : Nat} (h : s.osc.stepsLeft = k + 1) : inTick s :=
  fun h0 => by omega

/-- The last Step of a batch, if it completes, is followed by the end of the tick. -/
theorem step_last {s t : State} {op : Word} {i : Instr} (hlast : s.osc.stepsLeft = 1) (hfetch : fetches s op)
    (hdecode : decodeWord op = some i) (hexec : exec i s = .next t) (hosc : t.osc = s.osc) :
    step s = .next (endTick { t with osc := { s.osc with stepsLeft := 0 } }) := by
  rw [step_executed (inTick_of_stepsLeft hlast) hfetch hdecode hexec, finishStep_last (by rwa [hosc]), hosc]

/-- The instruction leaves the straps alone, so the mode is the same at the end of the tick as at its beginning. -/
theorem cfg_of_exec {i : Instr} {s t : State} (h : exec i s = .next t) : t.cfg = s.cfg := by
  obtain hk | ⟨c, a, rfl⟩ := exec_keeps i s t h
  · exact hk.cfg
  · rfl

/-! ## Where the fault arose -/

/-- At one PC only one word is fetched. -/
theorem fetches_unique {s : State} {op op' : Word} (h : fetches s op) (h' : fetches s op') : op = op' :=
  h.2.trans h'.2.symm

/-- A word is fetched only below 0xFFF. -/
theorem pc_lt_of_fetches {s : State} {op : Word} (h : fetches s op) : s.cpu.pc.toNat < 0xFFF := by
  have hin := h.1
  omega

/-- The lowest address of 4096 or more that a fetch at `pc` touches (60_exceptions.md R201). -/
theorem max_pc_eq {pc : Word} (h : 0xFFF ≤ pc.toNat) :
    max pc.toNat 4096 = if pc = 0xFFF then 0x1000 else pc.toNat := by
  split_ifs with hpc
  · rw [hpc]
    rfl
  · have hne : pc.toNat ≠ 0xFFF := fun he => hpc (BitVec.eq_of_toNat_eq he)
    exact max_eq_left (by omega)

end Sys2Proof.Machine

namespace Sys2Proof.Proofs

open Sys2Proof.Machine

/-- Settles O8: `step_executed`, with one Step fewer left. -/
theorem batchGoesOnStepByStep : Obligations.BatchGoesOnStepByStep := by
  intro s t op i k hk hfetch hdecode hexec hosc
  rw [step_executed (inTick_of_stepsLeft hk) hfetch hdecode hexec, finishStep_more (k := k) (by rwa [hosc]), hosc]

/-- Settles O9: the fetch phase faults before anything is decoded. -/
theorem fetchOutOfRangeHalts : Obligations.FetchOutOfRangeHalts := by
  intro s htick hpc
  rw [step_settled htick (fetchPhase_outside (by omega)), max_pc_eq hpc]

/-- Settles O10: the decode phase faults before anything is executed. -/
theorem unknownOpcodeHalts : Obligations.UnknownOpcodeHalts := by
  intro s op htick hfetch hdecode
  refine step_settled htick ?_
  simp only [fetchPhase_inside hfetch, decodePhase, hdecode, takeFault_eq]

/-- Settles O11, by the phase of the fault (`step_cases`). An executed instruction that kept the Oscillator did not
halt the machine; one that faulted recorded its own word, which is the word fetched (`decodeAndEncodeRoundTrip`). -/
theorem faultingStepCommitsNothing : Obligations.FaultingStepCommitsNothing := by
  intro s t htick hrun hstep hhalted
  obtain ⟨hleft, -⟩ | ⟨-, hout, he⟩ | ⟨op, -, hfetch, -, he⟩ | ⟨op, i, -, hfetch, hdecode, -⟩ := step_cases s
  · exact absurd hleft htick
  · cases hstep.symm.trans he
    refine ⟨_, rfl, rfl, fun op hfetch => ?_, fun _ => rfl⟩
    exact absurd hfetch.1 (by omega)
  · cases hstep.symm.trans he
    refine ⟨_, rfl, rfl, fun op' hfetch' => congrArg some (fetches_unique hfetch hfetch'), fun hpc => ?_⟩
    exact absurd (pc_lt_of_fetches hfetch) (by omega)
  · rw [step_decoded htick hfetch hdecode] at hstep
    cases hexec : exec i s with
    | next u =>
      rw [hexec] at hstep
      cases hstep
      obtain hk | ⟨c, a, rfl⟩ := exec_keeps i s u hexec
      · exact absurd hhalted (runState_finishStep_ne_halted (by rwa [hk.osc]))
      · have hword : encode i = op := decodeAndEncodeRoundTrip.1 op i hdecode
        refine ⟨_, finishStep_faulted rfl, rfl, fun op' hfetch' => ?_, fun hpc => ?_⟩
        · exact congrArg some (hword.trans (fetches_unique hfetch hfetch'))
        · exact absurd (pc_lt_of_fetches hfetch) (by omega)
    | fault f => rw [hexec] at hstep; cases hstep
    | refused r => rw [hexec] at hstep; cases hstep

/-- Settles O41: the end of an Astable tick is the timer decay, here as one update (`timerDecay_eq`). -/
theorem astableTickEndsWithDecay : Obligations.AstableTickEndsWithDecay := by
  intro s t op i hlast hmode hfetch hdecode hexec hosc
  refine ⟨decayed t.cpu.dt, decayed t.cpu.st, ?_, toNat_decayed _, toNat_decayed _⟩
  have hmode' : t.cfg.mode = .astable := by rwa [cfg_of_exec hexec]
  rw [step_last hlast hfetch hdecode hexec hosc, endTick_astable (by exact hmode'), timerDecay_eq]

/-- Settles O42: the end of a Monostable tick writes the Oscillator and the outputs only. -/
theorem monostableTickStopsAfterOneStep : Obligations.MonostableTickStopsAfterOneStep := by
  intro s t op i hlast hmode hfetch hdecode hexec hosc
  have hmode' : t.cfg.mode = .monostable := by rwa [cfg_of_exec hexec]
  rw [step_last hlast hfetch hdecode hexec hosc, endTick_monostable (by exact hmode')]

end Sys2Proof.Proofs
end

section
/-! The beginning of a tick (60_exceptions.md R224 to R226): what a pulse does by arming, run state and mode, and the
batch sizes of consecutive Astable ticks, which sum to SPEED_HZ since each tick carries its remainder on. -/

namespace Sys2Proof.Machine

/-! ## One pulse -/

theorem beginTick_disarmed {s : State} (h : s.osc.tickArmed = false) : beginTick s = .next s := if_pos h

theorem beginTick_counted {s : State} (harmed : s.osc.tickArmed = true) (hrun : s.osc.runState ≠ .running) :
    beginTick s = .next { s with osc := { s.osc with elapsedTicks := s.osc.elapsedTicks + 1 } } := by
  rw [beginTick, if_neg (by simp [harmed])]
  exact if_pos hrun

theorem beginTick_monostable {s : State} (harmed : s.osc.tickArmed = true) (hrun : s.osc.runState = .running)
    (hmode : s.cfg.mode = .monostable) :
    beginTick s = .next { s with osc :=
      { s.osc with elapsedTicks := s.osc.elapsedTicks + 1, stepsLeft := 1 } } := by
  simp [beginTick, harmed, hrun, hmode, beginMonostable]

theorem beginTick_astable {s : State} (harmed : s.osc.tickArmed = true) (hrun : s.osc.runState = .running)
    (hmode : s.cfg.mode = .astable) (hpos : 0 < s.cfg.tickHz) :
    beginTick s = .next { s with osc :=
      { s.osc with
        elapsedTicks := s.osc.elapsedTicks + 1
        stepsLeft := batchSize (s.osc.acc + s.cfg.speedHz) s.cfg.tickHz
        acc := (s.osc.acc + s.cfg.speedHz) % s.cfg.tickHz } } := by
  simp [beginTick, harmed, hrun, hmode, beginAstable, hpos.ne']

/-! ## The batch -/

theorem batchSize_of_le {total tickHz : Nat} (hpos : 0 < tickHz) (h : tickHz ≤ total) :
    batchSize total tickHz = total / tickHz :=
  max_eq_left (Nat.div_pos h hpos)

theorem batchSize_of_lt {total tickHz : Nat} (h : total < tickHz) : batchSize total tickHz = 1 := by
  rw [batchSize, Nat.div_eq_of_lt h]
  rfl

/-- A batch that need not be forced to one Step, and the remainder carried on, make up the total (60_exceptions.md
R226). -/
theorem batchSize_mul_add_mod {total tickHz : Nat} (hpos : 0 < tickHz) (h : tickHz ≤ total) :
    batchSize total tickHz * tickHz + total % tickHz = total := by
  rw [batchSize_of_le hpos h, Nat.div_add_mod']

/-- The balance of the first `n` ticks: the Steps run and the remainder carried on make up what the ticks added. -/
theorem sum_batchSize_mul_add {tickHz speedHz : Nat} {acc : Nat → Nat} (hpos : 0 < tickHz)
    (hspeed : tickHz ≤ speedHz) (hacc : ∀ k, acc (k + 1) = (acc k + speedHz) % tickHz) (n : Nat) :
    ((List.range n).map fun k => batchSize (acc k + speedHz) tickHz).sum * tickHz + acc n = acc 0 + n * speedHz := by
  induction n with
  | zero => simp
  | succ n ih =>
    have htick : batchSize (acc n + speedHz) tickHz * tickHz + acc (n + 1) = acc n + speedHz := by
      rw [hacc]
      exact batchSize_mul_add_mod hpos (by omega)
    rw [List.range_succ, List.map_append, List.sum_append, List.map_singleton, List.sum_singleton, Nat.add_mul,
      Nat.succ_mul]
    omega

theorem acc_lt {tickHz speedHz : Nat} {acc : Nat → Nat} (hpos : 0 < tickHz) (h0 : acc 0 < tickHz)
    (hacc : ∀ k, acc (k + 1) = (acc k + speedHz) % tickHz) : ∀ k, acc k < tickHz
  | 0 => h0
  | k + 1 => hacc k ▸ Nat.mod_lt _ hpos

end Sys2Proof.Machine

namespace Sys2Proof.Proofs

open Sys2Proof.Machine

/-- Settles O39, by the branches of `beginTick`; the Astable batch by whether it is forced to one Step. -/
theorem tickPulseStartsABatch : Obligations.TickPulseStartsABatch := by
  intro s rest h
  rw [step_input h]
  refine ⟨fun harmed => beginTick_disarmed harmed, fun harmed hrun => beginTick_counted harmed hrun,
    fun harmed hrun hmode => beginTick_monostable harmed hrun hmode, fun harmed hrun hmode hpos => ?_⟩
  refine ⟨_, _, beginTick_astable harmed hrun hmode hpos, Nat.mod_lt _ hpos, fun hle => ?_, fun hlt => ?_⟩
  · exact (batchSize_mul_add_mod hpos hle).symm
  · exact ⟨batchSize_of_lt hlt, Nat.mod_eq_of_lt hlt⟩

/-- Settles O40: over TICK_HZ ticks the balance (`sum_batchSize_mul_add`) is between multiples of TICK_HZ, with a
remainder below TICK_HZ on each side. -/
theorem batchesDoNotDrift : Obligations.BatchesDoNotDrift := by
  intro tickHz speedHz acc hpos hspeed h0 hacc
  have hbalance := sum_batchSize_mul_add hpos hspeed hacc tickHz
  have hlast := acc_lt hpos h0 hacc tickHz
  calc ((List.range tickHz).map fun k => batchSize (acc k + speedHz) tickHz).sum
    _ = (((List.range tickHz).map fun k => batchSize (acc k + speedHz) tickHz).sum * tickHz + acc tickHz) / tickHz := by
      rw [Nat.mul_comm, Nat.mul_add_div hpos, Nat.div_eq_of_lt hlast, Nat.add_zero]
    _ = (acc 0 + tickHz * speedHz) / tickHz := by rw [hbalance]
    _ = speedHz := by rw [Nat.add_mul_div_left _ _ hpos, Nat.div_eq_of_lt h0, Nat.zero_add]

end Sys2Proof.Proofs
end

section
/-! The commands between ticks that write the Oscillator or one setting (60_exceptions.md R221 to R223,
70_reset_and_hazards.md R257), and what every input leaves alone while Halted (60_exceptions.md R230). -/

namespace Sys2Proof.Machine

/-- Between ticks with no input in store nothing happens (60_exceptions.md R235). -/
theorem step_idle {s : State} (hleft : s.osc.stepsLeft = 0) (h : s.env.inputs = []) : step s = .next s := by
  rw [step_between hleft, takeInput, h]

/-- `Stop()` from Running (60_exceptions.md R222). -/
theorem stop_running {s : State} (h : s.osc.runState = .running) :
    stop s = { s with osc := { s.osc with runState := .stopped, tickArmed := false } } := by
  rw [stop, if_pos h]

/-- `Stop()` from any other run state leaves it in place (60_exceptions.md R222). -/
theorem stop_not_running {s : State} (h : s.osc.runState ≠ .running) :
    stop s = { s with osc := { s.osc with tickArmed := false } } := by
  rw [stop, if_neg h]

/-- While not Running a pulse is at most counted (60_exceptions.md R224). -/
theorem beginTick_not_running {s : State} (h : s.osc.runState ≠ .running) :
    ∃ n, beginTick s = .next { s with osc := { s.osc with elapsedTicks := n } } := by
  cases harmed : s.osc.tickArmed with
  | false => exact ⟨_, beginTick_disarmed harmed⟩
  | true => exact ⟨_, beginTick_counted harmed h⟩

theorem setOptionFlag_cfg (flag : OptionFlag) (b : Bool) (s : State) :
    ∃ cfg, setOptionFlag flag b s = { s with cfg := cfg } := by
  cases flag with
  | clearScreenOnReset | modifyIOnFx55AndFx65 => exact ⟨_, rfl⟩

/-- `LoadProgram` answers, whatever the length of the image, and writes Memory, the stored program and the outputs
(70_reset_and_hazards.md R254, R255). -/
theorem loadProgram_answers (image : List Byte) (s : State) :
    ∃ mem program outputs,
      loadProgram image s = some { s with mem := mem, program := program, outputs := outputs } := by
  by_cases hlong : 3584 < image.length
  · exact ⟨_, _, _, if_pos hlong⟩
  · exact ⟨_, _, _, (if_neg hlong).trans (loadImage_fits (by simp; omega) _)⟩

/-- What an input can do while not Running: it is `Start` or a reset, it is `LoadProgram`, or it writes no more of the
Oscillator than the arming and the count of ticks, and nothing else but the configuration and the outputs. -/
theorem applyInput_not_running {i : Input} {s t : State} (hrun : s.osc.runState ≠ .running)
    (h : applyInput i s = .next t) :
    (i = .start ∨ i = .powerCycle ∨ i = .restart) ∨
    (∃ image mem program outputs,
      i = .loadProgram image ∧ t = { s with mem := mem, program := program, outputs := outputs }) ∨
    ∃ armed ticks cfg outputs, t =
      { s with
        osc := { s.osc with tickArmed := armed, elapsedTicks := ticks }
        cfg := cfg
        outputs := outputs } := by
  cases i with
  | start => exact .inl (.inl rfl)
  | powerCycle => exact .inl (.inr (.inl rfl))
  | restart => exact .inl (.inr (.inr rfl))
  | loadProgram image =>
    obtain ⟨mem, program, outputs, he⟩ := loadProgram_answers image s
    rw [applyInput, he] at h
    cases h
    exact .inr (.inl ⟨image, mem, program, outputs, rfl, rfl⟩)
  | tick =>
    obtain ⟨n, he⟩ := beginTick_not_running hrun
    cases h.symm.trans he
    exact .inr (.inr ⟨_, _, _, _, rfl⟩)
  | stop =>
    rw [applyInput, stop_not_running hrun] at h
    cases h
    exact .inr (.inr ⟨_, _, _, _, rfl⟩)
  | setOptionFlag flag b =>
    obtain ⟨cfg, he⟩ := setOptionFlag_cfg flag b s
    rw [applyInput, he] at h
    cases h
    exact .inr (.inr ⟨_, _, _, _, rfl⟩)
  | setMode | setSpeed | getOptionFlag =>
    cases h
    exact .inr (.inr ⟨_, _, _, _, rfl⟩)

end Sys2Proof.Machine

namespace Sys2Proof.Proofs

open Sys2Proof.Machine

/-- Settles O43: `start` is the update of R221, and `stop` that of R222 by the run state. -/
theorem startAndStopSetTheRunState : Obligations.StartAndStopSetTheRunState := by
  refine fun s rest => ⟨fun h => step_input h, fun h hrun => ?_, fun h hrun => ?_⟩
  · rw [step_input h, applyInput, stop_running (by exact hrun)]
    rfl
  · rw [step_input h, applyInput, stop_not_running (by exact hrun)]
    rfl

/-- Settles O44: between ticks each of these inputs is its one update. -/
theorem settingsWriteOneRegister : Obligations.SettingsWriteOneRegister := fun _ _ _ _ _ =>
  ⟨fun h => step_input h, fun h => step_input h, fun h => step_input h, fun h => step_input h, fun h => step_input h,
    fun h => step_input h⟩

/-- Settles O45: with no input nothing happens, and by `applyInput_not_running` an input that is none of the three
writes neither the run state nor the fault record, and Memory only if it is `LoadProgram`. -/
theorem haltedIsLeftOnlyByStartOrReset : Obligations.HaltedIsLeftOnlyByStartOrReset := by
  intro s t hhalted hleft hstep hstart hpower hrestart
  cases hin : s.env.inputs with
  | nil =>
    rw [step_idle hleft hin] at hstep
    cases hstep
    exact ⟨hhalted, rfl, hleft, rfl, rfl, rfl, fun _ _ => rfl⟩
  | cons i rest =>
    rw [step_input ⟨hleft, hin⟩] at hstep
    have hrun : (inputTaken s rest).osc.runState ≠ .running := by simp [inputTaken, hhalted]
    obtain (rfl | rfl | rfl) | ⟨image, mem, program, outputs, rfl, rfl⟩ | ⟨armed, ticks, cfg, outputs, rfl⟩ :=
      applyInput_not_running hrun hstep
    · exact absurd hin (hstart rest)
    · exact absurd hin (hpower rest)
    · exact absurd hin (hrestart rest)
    · exact ⟨hhalted, rfl, hleft, rfl, rfl, rfl, fun hload => absurd rfl (hload image rest)⟩
    · exact ⟨hhalted, rfl, hleft, rfl, rfl, rfl, fun _ _ => rfl⟩

end Sys2Proof.Proofs
end

section
/-! From a state of the invariant a step always answers a next state: each input between ticks, since what it loads fits
and TICK_HZ is not 0, and each instruction, since SP is at most 16. -/

namespace Sys2Proof.Machine

/-- A pulse answers a next state when TICK_HZ is positive (00_scope.md R7). -/
theorem beginTick_answers {s : State} (hpos : 0 < s.cfg.tickHz) : ∃ t, beginTick s = .next t := by
  by_cases hrun : s.osc.runState = .running
  · cases harmed : s.osc.tickArmed with
    | false => exact ⟨_, beginTick_disarmed harmed⟩
    | true =>
      cases hmode : s.cfg.mode with
      | monostable => exact ⟨_, beginTick_monostable harmed hrun hmode⟩
      | astable => exact ⟨_, beginTick_astable harmed hrun hmode hpos⟩
  · obtain ⟨n, he⟩ := beginTick_not_running hrun
    exact ⟨_, he⟩

/-- Every input answers a next state: what a reset loads fits its place (10_state.md R33, 70_reset_and_hazards.md
R259). -/
theorem applyInput_answers {s : State} (h : Inv s) (i : Input) : ∃ t, applyInput i s = .next t := by
  cases i with
  | tick => exact beginTick_answers h.tickHzPos
  | loadProgram image =>
    obtain ⟨_, _, _, he⟩ := loadProgram_answers image s
    exact ⟨_, by rw [applyInput, he, commandResult]⟩
  | powerCycle =>
    have hfont := h.fontFits
    exact ⟨_, by rw [applyInput, powerCycle_eq (by omega) h.program_length, commandResult]⟩
  | restart => exact ⟨_, by rw [applyInput, restart_eq h.program_length, commandResult]⟩
  | start | stop | setMode | setSpeed | setOptionFlag | getOptionFlag => exact ⟨_, rfl⟩

/-- `CALL` answers a next state when SP is at most 16 (10_state.md R27). -/
theorem exec_call_answers {s : State} (hsp : s.cpu.sp.toNat ≤ 16) (nnn : Addr) :
    ∃ t, exec (.call nnn) s = .next t := by
  by_cases hfull : s.cpu.sp = 16
  · exact ⟨_, exec_call_full nnn hfull⟩
  · have hne : s.cpu.sp.toNat ≠ 16 := fun he => hfull (BitVec.eq_of_toNat_eq he)
    exact ⟨_, exec_call_room (k := ⟨s.cpu.sp.toNat, by omega⟩) nnn rfl⟩

/-- `RET` answers a next state when SP is at most 16 (10_state.md R27). -/
theorem exec_ret_answers {s : State} (hsp : s.cpu.sp.toNat ≤ 16) : ∃ t, exec .ret s = .next t := by
  by_cases hempty : s.cpu.sp = 0
  · exact ⟨_, exec_ret_empty hempty⟩
  · have hne : s.cpu.sp.toNat ≠ 0 := fun he => hempty (BitVec.eq_of_toNat_eq he)
    exact ⟨_, exec_ret_live (k := ⟨s.cpu.sp.toNat - 1, by omega⟩) (by dsimp only; omega)⟩

/-- `DRW` answers a next state, whether its sprite lies in Memory or not. -/
theorem exec_drw_answers (x y : RegIx) (n : Nibble) (s : State) : ∃ t, exec (.drw x y n) s = .next t := by
  by_cases hin : n = 0 ∨ s.cpu.i.toNat + n.toNat ≤ 4096
  · obtain ⟨_, he, -⟩ := exec_drw_inside x y hin
    exact ⟨_, he⟩
  · obtain ⟨hn, hout⟩ := not_or.1 hin
    exact ⟨_, exec_drw_outside x y hn (not_le.1 hout)⟩

/-- Every instruction answers a next state when SP is at most 16: a condition that the spec calls a fault is the halt
sequence (60_exceptions.md R205). -/
theorem exec_answers {s : State} (hsp : s.cpu.sp.toNat ≤ 16) (i : Instr) : ∃ t, exec i s = .next t := by
  by_cases hop : i.op ∈ [Op.call, .ret, .drw, .ldB, .storeRegs, .loadRegs]
  · cases i
    case call nnn => exact exec_call_answers hsp nnn
    case ret => exact exec_ret_answers hsp
    case drw x y n => exact exec_drw_answers x y n s
    case ldB x =>
      obtain h | h := lt_or_ge (s.cpu.i.toNat + 2) 4096
      exacts [⟨_, exec_ldB_inside x h⟩, ⟨_, exec_ldB_outside x h⟩]
    case storeRegs x =>
      obtain h | h := lt_or_ge (s.cpu.i.toNat + x.val) 4096
      exacts [⟨_, exec_storeRegs_inside h⟩, ⟨_, exec_storeRegs_outside h⟩]
    case loadRegs x =>
      obtain h | h := lt_or_ge (s.cpu.i.toNat + x.val) 4096
      exacts [⟨_, exec_loadRegs_inside h⟩, ⟨_, exec_loadRegs_outside h⟩]
    all_goals simp [Instr.op] at hop
  · obtain ⟨t, he, -⟩ := Proofs.onlySixInstructionsCanFault i s hop
    exact ⟨t, he⟩

end Sys2Proof.Machine

namespace Sys2Proof.Proofs

open Sys2Proof.Machine

/-- Settles O52, by the four things one step can be (`step_cases`). -/
theorem invariantStatesNeverStop : Obligations.InvariantStatesNeverStop := by
  intro s h
  obtain ⟨hleft, -⟩ | ⟨-, -, he⟩ | ⟨op, -, -, -, he⟩ | ⟨op, i, htick, hfetch, hdecode, -⟩ := step_cases s
  · cases hin : s.env.inputs with
    | nil => exact ⟨s, step_idle hleft hin⟩
    | cons i rest =>
      rw [step_input ⟨hleft, hin⟩]
      exact applyInput_answers (s := inputTaken s rest) { h with } i
  · exact ⟨_, he⟩
  · exact ⟨_, he⟩
  · obtain ⟨t, hexec⟩ := exec_answers h.spBound i
    exact ⟨_, step_executed htick hfetch hdecode hexec⟩

end Sys2Proof.Proofs
end

section
/-! The two resets and program loading (70_reset_and_hazards.md R252 to R256, R260): what Memory reads after an image
is written over zeros, and what `LoadProgram` does with an image that fits and with one that does not. -/

namespace Sys2Proof.Machine

/-- An image written where Memory reads 0 from its start upward: past its end Memory still reads 0, which is also the
default of a byte that the image does not have. -/
theorem Memory.get_setRange_of_zero {m : Memory} {start : Nat} (hzero : ∀ a, start ≤ a → m.get a = 0)
    (bytes : List Byte) (a : Nat) :
    (m.setRange start bytes).get a = if start ≤ a then bytes.getD (a - start) 0 else m.get a := by
  rw [Memory.get_setRange]
  by_cases hlow : start ≤ a
  · rw [if_pos hlow]
    split_ifs with hin
    · rfl
    · rw [hzero a hlow, List.getD_eq_default _ _ (by omega)]
  · rw [if_neg hlow, if_neg fun hin => hlow hin.1]

/-- Memory after the cold reset, when the font ends at or below the program's start (70_reset_and_hazards.md R252,
R259). -/
theorem Memory.get_coldReset {base : Nat} {font : List Byte} (hfont : base + font.length ≤ 0x200)
    (image : List Byte) (a : Nat) :
    (((⟨[]⟩ : Memory).setRange base font).setRange 0x200 image).get a =
      if 0x200 ≤ a then image.getD (a - 0x200) 0 else if base ≤ a then font.getD (a - base) 0 else 0 := by
  have habove : ∀ b, 0x200 ≤ b → ((⟨[]⟩ : Memory).setRange base font).get b = 0 := fun b hb => by
    rw [Memory.get_setRange_other _ (.inr (hfont.trans hb)), Memory.get_empty]
  rw [Memory.get_setRange_of_zero habove, Memory.get_setRange_of_zero fun b _ => Memory.get_empty b,
    Memory.get_empty]

/-- A pixel after the Display part of a reset (70_reset_and_hazards.md R260). -/
theorem Display.get_ite_blank (clear : Bool) (fb : Display) (px : Fin 64) (py : Fin 32) :
    Display.get (if clear then Display.blank else fb) px py = if clear then false else Display.get fb px py := by
  obtain ⟨-, -, hblank⟩ := initial_registers
  split_ifs
  · exact hblank px py
  · rfl

/-- `LoadProgram` of an image that fits (70_reset_and_hazards.md R254). -/
theorem loadProgram_fits {image : List Byte} (h : image.length ≤ 3584) (s : State) :
    loadProgram image s = some
      { s with
        mem := s.mem.setRange 0x200 image
        program := some image
        outputs := s.outputs ++ rangeEvent 0x200 image.length } :=
  (if_neg (not_lt.2 h)).trans (loadImage_fits (Nat.add_le_add_left h 0x200) _)

/-- `LoadProgram` of an image that is too long (70_reset_and_hazards.md R255). -/
theorem loadProgram_tooLong {image : List Byte} (h : 3584 < image.length) (s : State) :
    loadProgram image s = some { s with outputs := s.outputs ++ [.programTooLarge image.length] } :=
  if_pos h

end Sys2Proof.Machine

namespace Sys2Proof.Proofs

open Sys2Proof.Machine

/-- Settles O46: the state of `powerCycle_eq`, whose Memory reads as `Memory.get_coldReset` says. -/
theorem powerCycleResetsEverything : Obligations.PowerCycleResetsEverything := by
  rintro s rest _ hin rfl hfont hprog
  obtain ⟨hv, hstack, -⟩ := initial_registers
  have hreset := powerCycle_eq (s := inputTaken s rest) (hfont.trans (by decide)) hprog
  exact ⟨_, (step_input hin).trans (congrArg commandResult hreset), Memory.get_coldReset hfont _, hv, rfl, rfl, rfl,
    hstack, rfl, rfl, rfl, Display.get_ite_blank s.cfg.clearScreenOnReset s.fb, rfl, rfl, rfl, rfl, rfl⟩

/-- Settles O47: the state of `restart_eq`, whose Memory is written in the program's span alone. -/
theorem restartPreservesOtherMemory : Obligations.RestartPreservesOtherMemory := by
  rintro s rest _ hin rfl hprog
  obtain ⟨hv, hstack, -⟩ := initial_registers
  have hreset := restart_eq (s := inputTaken s rest) hprog
  exact ⟨_, (step_input hin).trans (congrArg commandResult hreset), fun _ => Memory.get_setRange_add s.mem 0x200,
    fun _ => Memory.get_setRange_other s.mem, hv, rfl, rfl, rfl, hstack, rfl, rfl, rfl,
    Display.get_ite_blank s.cfg.clearScreenOnReset s.fb, rfl, rfl, rfl, rfl, rfl⟩

/-- Settles O48: an image that fits is one range write at 0x200, and a longer one is one report. -/
theorem loadProgramStoresOrRejects : Obligations.LoadProgramStoresOrRejects := by
  refine fun s rest image hin => ⟨fun hfit => ?_, fun hlong => ?_⟩
  · have hload := loadProgram_fits hfit (inputTaken s rest)
    exact ⟨_, (step_input hin).trans (congrArg commandResult hload), fun _ => Memory.get_setRange_add s.mem 0x200,
      fun _ => Memory.get_setRange_other s.mem, rfl⟩
  · exact (step_input hin).trans (congrArg commandResult (loadProgram_tooLong hlong (inputTaken s rest)))

end Sys2Proof.Proofs
end
